-- ==== Sys2Proof/Word.lean ====
section
/-! DEFINITION. The word types of FBRW-RDMA: operand fields and framebuffer cells of 8 bits (00_scope.md R16,
10_state.md R24), host registers of 32 bits and command words of 64 bits (R15), window offsets of 12 bits (R15). -/

namespace Sys2Proof

/-- An operand field, a framebuffer cell, a controller byte (R16, R24, R20). -/
abbrev Byte := BitVec 8

/-- A host-visible register or one half of a command word (R15). -/
abbrev Word32 := BitVec 32

/-- A command word or the fault record (R15, R35). -/
abbrev Word64 := BitVec 64

/-- A byte offset in the 4 KiB register window (R15, R43). -/
abbrev Offset := BitVec 12

end Sys2Proof
end

