-- ==== Sys2Proof/Config.lean ====
section
/-! DEFINITION. What a build of the block fixes (00_scope.md section 4) and the values the spec leaves free.
The build-time parameters are plain data: a State carries them (no step writes them), so every statement about every
state is a statement about every build (assumption log 1). -/

namespace Sys2Proof

/-- The bus that carries the transaction stream (R12). No rule depends on its value. -/
inductive Bus where
  | spi
  | i2c
deriving DecidableEq, Repr

/-- One row of a build's own `CURSOR_CMDS`: the bytes for one page and column, `first` then `rest`, so that the list is
non-empty as R13 requires. -/
structure CursorEntry where
  page : Nat
  col : Nat
  first : Byte
  rest : List Byte
deriving DecidableEq, Repr

/-- The build-time parameters (R9 to R16). `COLS`, `ROWS`, `PAGE_H` are fixed numbers (R10, D47), not parameters.
The defaults: `NBUF = 1` is the spec's (R11); `cursorTable = []` gives the default of D16 (PRESUMED, log 12);
`bus`, `colOffset` and `windowBase` are DESIGN CHOICE (log 11). -/
structure Params where
  /-- `NBUF`, the number of buffers, a byte in [1,255] (R11, R33). -/
  nbuf : Byte := 1
  /-- `TRANSPORT` (R12). -/
  bus : Bus := .spi
  /-- `COL_OFFSET`, in [0,4] (R14). -/
  colOffset : Fin 5 := 0
  /-- The pages and columns at which `CURSOR_CMDS` (R13) differs from the default of D16. -/
  cursorTable : List CursorEntry := []
  /-- `WINDOW_BASE`, the window's base in the host's address map (R44). -/
  windowBase : Nat := 0
deriving DecidableEq, Repr

/-- FREE VALUE (assumption log 2). The unspecified contents of the framebuffer: the byte that a cell not written since
the `n`-th reset holds, at the key of the cell (R41, R168, U8: "each byte some value, stable until written"). -/
opaque Config.powerOnByte : Nat → Nat → Byte

/-- FREE VALUE (assumption log 20). Which configuration bytes of the informative reference sink take an argument byte
(93_implementation_defined.md section 3 names no list). -/
opaque Config.sinkTakesArgument : Byte → Bool

end Sys2Proof
end

