-- ==== Sys2Proof/Machine/State.lean ====
section
/-! DEFINITION. The state of the block (10_state.md), the inputs that still await it, the reasons a step can stop, and
the state after reset (R41). Plain data throughout. -/

namespace Sys2Proof.Machine

/-- A step never stops with a fault: every command and every access ends in a next state, a fault of the block being a
recorded one (60_exceptions.md R145, R151, R152; 30_encoding.md R71 "The decoder is total"). So there is no constructor
and nobody raises one (assumption log 18, safe). -/
inductive Fault where
deriving DecidableEq, Repr

/-- A step refuses nothing that the model has a meaning for. -/
inductive Refusal where
  /-- Raised only by an arm of `exec` whose instruction has no meaning yet; safe (the model stops). -/
  | notModelled (mnemonic : String)
deriving DecidableEq, Repr

/-- The causes of a recorded fault (60_exceptions.md R146, codes 1 to 7). -/
inductive Cause where
  | illegalOpcode
  | reservedField
  | badValue
  | countRange
  | pixelRange
  | overrun
  | badAccess
deriving DecidableEq, Repr

/-- A transaction of the output queue (00_scope.md R20). -/
inductive Transaction where
  /-- `Cmd(b)`, one controller command byte. -/
  | cmd (b : Byte)
  /-- `Data(bs)`, one burst of display-data bytes, in order. -/
  | data (bs : List Byte)
deriving DecidableEq, Repr

/-- The size of a host access: 1, 2 or 4 bytes (60_exceptions.md R147; assumption log 10). -/
inductive Size where
  | byte
  | half
  | word
deriving DecidableEq, Repr

/-- What can happen to the block next: a host access to the window (20_memory.md R64), a turn of the Transport
(41_transport_dma.md R123), the reset input (70_reset_and_hazards.md R164). -/
inductive Input where
  /-- `MemRead(off, n)`. -/
  | read (off : Offset) (n : Size)
  /-- `MemWrite(off, n, v)`. -/
  | write (off : Offset) (n : Size) (v : Word32)
  /-- The Transport may take one step. -/
  | transport
  /-- The reset input is asserted. -/
  | reset
deriving DecidableEq, Repr

/-- The framebuffer store as written cells: key and byte, keys strictly rising (assumption log 3, log 14). -/
abbrev Memory := List Host.Cell

/-- The machine's state. -/
structure State where
  /-- The build-time parameters (R11 to R14, R44); no step writes them. -/
  params : Params
  /-- The cells of `FB` written since the last reset (R24). A cell that is not listed holds its power-on byte. -/
  cells : Memory
  /-- The model's own field: the number of the reset whose unspecified contents the unwritten cells hold (log 2). -/
  powerOn : Nat
  /-- `CUR` (R27). -/
  cur : Byte
  /-- `FAULT` (R31). -/
  fault : Bool
  /-- `REJ` (R32). -/
  rej : Bool
  /-- `FCAUSE` (R34). -/
  fcause : Byte
  /-- `FCMD` (R35). -/
  fcmd : Word64
  /-- `CMD_LO` (R36). -/
  cmdLo : Word32
  /-- `OQ`, head first (R39). -/
  oq : List Transaction
  /-- The output transaction stream: what the display has been handed, oldest first (R43 (c), R128). -/
  delivered : List Transaction
  /-- The model's own field: the values host reads have returned, oldest first (log 8). -/
  responses : List Word32
  /-- The model's own field: what happens to the block next, in the total order of R55 (log 4). -/
  inputs : List Input
deriving DecidableEq, Repr

/-- What a step or a meaning answers. -/
abbrev Answer := Host.Outcome State Fault Refusal

/-- The block right after its `n`-th reset, for a build `p` (10_state.md R41). -/
def State.resetWith (p : Params) (n : Nat) : State where
  params := p
  cells := []
  powerOn := n
  cur := 0
  fault := false
  rej := false
  fcause := 0
  fcmd := 0
  cmdLo := 0
  oq := []
  delivered := []
  responses := []
  inputs := []

/-- The block right after reset, for the default build (10_state.md R41; parameters: assumption log 11, log 12). -/
def State.reset : State := State.resetWith {} 0

end Sys2Proof.Machine
end

