-- ==== Sys2Proof/Machine/Flags.lean ====
section
/-! DEFINITION. The flags: BUSY, REJ, the cause codes and the STATUS word (10_state.md sections 5 and 11). -/

namespace Sys2Proof.Machine

/-- `BUSY = 1` exactly when `OQ` holds at least one transaction (R30). -/
def busy (s : State) : Bool := !s.oq.isEmpty

/-- `done()`: `REJ <- 0` (00_scope.md R19). -/
def done (s : State) : State := { s with rej := false }

/-- `reject()`: `REJ <- 1`, no other effect (R19, 60_exceptions.md R145). -/
def reject (s : State) : State := { s with rej := true }

/-- The `FCAUSE` code of a cause (60_exceptions.md R146). -/
def causeCode : Cause → Byte
  | .illegalOpcode => 1
  | .reservedField => 2
  | .badValue => 3
  | .countRange => 4
  | .pixelRange => 5
  | .overrun => 6
  | .badAccess => 7

/-- The STATUS register: NBUF 31:24, CUR 23:16, FCAUSE 15:8, zeros 7:3, REJ 2, FAULT 1, BUSY 0 (R29). -/
def statusWord (s : State) : Word32 :=
  s.params.nbuf ++ s.cur ++ s.fcause ++ (0 : BitVec 5) ++ BitVec.ofBool s.rej ++ BitVec.ofBool s.fault ++
    BitVec.ofBool (busy s)

end Sys2Proof.Machine
end

