-- ==== Sys2Proof/Machine/Operands.lean ====
section
/-! DEFINITION. The operand checks of the commands. Every sum is exact, on natural numbers, with no wrap-around
(00_scope.md R17, 40_pixel_run.md R83, D12). -/

namespace Sys2Proof.Machine

/-- SETPIX: `D > 1` (40_pixel_run.md R85). -/
abbrev ValueBad (d : Byte) : Prop := d.toNat > 1

/-- RUNV, RUNH: `C < 1 or C > 8` (R91, R97). -/
abbrev CountBad (c : Byte) : Prop := c.toNat < 1 ∨ c.toNat > 8

/-- SETPIX: `X >= 128 or Y >= 64` (R85). -/
abbrev PixelOutside (x y : Byte) : Prop := x.toNat ≥ 128 ∨ y.toNat ≥ 64

/-- RUNV: `X >= 128 or Y >= 64 or Y + C > 64` (R91). -/
abbrev ColumnRunOutside (x y c : Byte) : Prop := x.toNat ≥ 128 ∨ y.toNat ≥ 64 ∨ y.toNat + c.toNat > 64

/-- RUNH: `X >= 128 or Y >= 64 or X + C > 128` (R97). -/
abbrev RowRunOutside (x y c : Byte) : Prop := x.toNat ≥ 128 ∨ y.toNat ≥ 64 ∨ x.toNat + c.toNat > 128

/-- CLEAR: `X + W > 128 or Y + H > 64` (R103). -/
abbrev ClearOutside (x y w h : Byte) : Prop := x.toNat + w.toNat > 128 ∨ y.toNat + h.toNat > 64

/-- FLUSH: `X + W > 128 or Y + H > 8` (41_transport_dma.md R112). -/
abbrev FlushOutside (x y w h : Byte) : Prop := x.toNat + w.toNat > 128 ∨ y.toNat + h.toNat > 8

/-- BUFGOTO: `D >= NBUF` (42_buffer_select.md R137). -/
abbrev IndexOutside (d nbuf : Byte) : Prop := d.toNat ≥ nbuf.toNat

/-- The size of a host access in bytes (60_exceptions.md R147). -/
def sizeBytes : Size → Nat
  | .byte => 1
  | .half => 2
  | .word => 4

end Sys2Proof.Machine
end

