-- ==== Sys2Proof/Machine/Ops.lean ====
section
/-! DEFINITION. The named operations: the framebuffer store and its cells, the helpers `WritePixel` and `VRun`, the
output queue, fault entry and the return from a fault, and the bad-access descriptor. -/

namespace Sys2Proof.Machine

/-! ## The store -/

/-- The byte written at key `a`, none where none was written since the last reset. -/
def memRead : Memory → Nat → Option Byte
  | [], _ => none
  | (k, v) :: m, a => if a = k then some v else memRead m a

/-- Write byte `v` at key `a`, keeping the keys rising and each key once. -/
def memWrite : Memory → Nat → Byte → Memory
  | [], a, v => [(a, v)]
  | (k, w) :: m, a, v =>
    if a < k then (a, v) :: (k, w) :: m
    else if a = k then (a, v) :: m
    else (k, w) :: memWrite m a v

/-- The canonical form of the store: keys strictly rising. An unlisted key reads as "nothing written" (`memRead` answers
none), which no entry equals, so two stores with the same reads are the same list (assumption log 3). -/
abbrev Memory.wf (m : Memory) : Prop := m.Pairwise (fun e f => e.1 < f.1)

/-- The key of cell (buffer, column, page): buffers of 1024 bytes (R24), page-major inside a buffer as FBWIN is
(20_memory.md R48). Not visible to the host (assumption log 14). -/
def cellKey (b c p : Nat) : Nat := b * 1024 + p * 128 + c

/-- The byte at a key: the one last written, or the unspecified power-on byte if none was (R41, R56, R168). -/
def byteAt (s : State) (a : Nat) : Byte := (memRead s.cells a).getD (Config.powerOnByte s.powerOn a)

/-- `FB[b][c][p]` (R24). -/
def cell (s : State) (b c p : Nat) : Byte := byteAt s (cellKey b c p)

/-- The key of `FB[CUR][c][p]`: the cell a pixel command stores to. -/
def curKey (s : State) (c p : Nat) : Nat := cellKey s.cur.toNat c p

/-- `FB[CUR][c][p] <- v`. -/
def setCell (s : State) (c p : Nat) (v : Byte) : State := { s with cells := memWrite s.cells (curKey s c p) v }

/-- Pixel (x, y) of buffer b: bit `y % 8` of `FB[b][x][y / 8]` (R25). -/
def pixel (s : State) (b x y : Nat) : Bool := (cell s b x (y / 8)).getLsbD (y % 8)

/-! ## Pixel helpers -/

/-- Replace the bits of `old` that `m` marks by those of `new`: `(old & ~m) | (new & m)` (40_pixel_run.md R81). The whole
cell is replaced when every bit is marked (R94 (a)); the formula gives the same (assumption log 15). -/
def mergeBits (m new old : Byte) : Byte := if m = 0xFF then new else (old &&& ~~~m) ||| (new &&& m)

/-- `WritePixel(x, y, v)` in buffer `CUR` (R80). -/
def writePixel (x y : Nat) (v : Bool) (s : State) : State :=
  let p := y / 8
  let i := y % 8
  setCell s x p ((cell s s.cur.toNat x p &&& ~~~((1 : Byte) <<< i)) ||| ((BitVec.ofBool v).setWidth 8 <<< i))

/-- `m1` of R81: bits off .. min(7, off+n-1). -/
def runMaskFirst (n off : Nat) : Byte := ((((1 : BitVec 16) <<< n) - 1) <<< off).setWidth 8

/-- `m2` of R81: bits 0 .. off+n-9. -/
def runMaskSecond (n off : Nat) : Byte := ((1 : Byte) <<< (off + n - 8)) - 1

/-- `VRun(x, y, pat, n)` in buffer `CUR` (R81): one masked write, or two when the span crosses a page boundary.
`pat << off` is computed at 16 bits before masking. -/
def vRun (x y : Nat) (pat : Byte) (n : Nat) (s : State) : State :=
  let p := y / 8
  let off := y % 8
  let s1 := setCell s x p
    (mergeBits (runMaskFirst n off) ((pat.setWidth 16 <<< off).setWidth 8) (cell s s.cur.toNat x p))
  if off + n > 8 then
    setCell s1 x (p + 1) (mergeBits (runMaskSecond n off) (pat >>> (8 - off)) (cell s1 s.cur.toNat x (p + 1)))
  else s1

/-! ## The output queue -/

/-- `Emit(t)`: append to the tail of `OQ` (00_scope.md R19, 10_state.md R39). -/
def emit (t : Transaction) (s : State) : State := { s with oq := s.oq ++ [t] }

/-- The default `CURSOR_CMDS` of D16: set page, lower column, higher column, the column moved by `COL_OFFSET`. -/
def defaultCursorCmds (offset page col : Nat) : List Byte :=
  [(0xB0 : Byte) ||| BitVec.ofNat 8 page, BitVec.ofNat 8 (col + offset) &&& 0x0F,
    (0x10 : Byte) ||| (BitVec.ofNat 8 (col + offset) >>> 4)]

/-- `CURSOR_CMDS(page, col)` of a build: its own entry for that page and column, else the default (R13, D16). -/
def cursorCmds (p : Params) (page col : Nat) : List Byte :=
  match p.cursorTable.find? (fun e => e.page = page ∧ e.col = col) with
  | some e => e.first :: e.rest
  | none => defaultCursorCmds p.colOffset.val page col

/-! ## Taking a fault and returning from it -/

/-- `raise Fault(cause, info)`: record the first fault, write nothing if one is recorded already (60_exceptions.md R151,
R155). -/
def raiseFault (c : Cause) (info : Word64) (s : State) : State :=
  if s.fault then s else { s with fault := true, fcause := causeCode c, fcmd := info }

/-- The return from a fault, the body of FAULTCLR: the record is cleared, nothing is restored (R154, 43_control.md R143). -/
def clearFault (s : State) : State := { s with fault := false, fcause := 0, fcmd := 0 }

/-- The descriptor a bad access records: bit 31 write, bits 18:16 size in bytes, bits 11:0 offset (R147). -/
def accessDescriptor (isWrite : Bool) (n : Size) (off : Offset) : Word64 :=
  (BitVec.ofBool isWrite).setWidth 64 <<< 31 ||| BitVec.ofNat 64 (sizeBytes n) <<< 16 ||| off.setWidth 64

/-! ## The window in the host's address map -/

/-- The window offset that a host address reaches, none outside the window at `WINDOW_BASE` (20_memory.md R44). The
inputs of State carry offsets, what every rule speaks of; this is where an address of the platform becomes one. -/
def windowOffset (p : Params) (addr : Nat) : Option Offset :=
  if p.windowBase ≤ addr ∧ addr < p.windowBase + 4096 then some (BitVec.ofNat 12 (addr - p.windowBase)) else none

end Sys2Proof.Machine
end

