-- ==== Sys2Proof/Machine/BufferSelect.lean ====
section
/-! DEFINITION. BUFNEXT, BUFPREV and BUFGOTO (42_buffer_select.md). -/

namespace Sys2Proof.Machine

/-- `CUR <- n`, an 8-bit index (10_state.md R27). -/
def setCur (n : Nat) (s : State) : State := { s with cur := BitVec.ofNat 8 n }

/-- BUFNEXT: `CUR <- (CUR + 1) % NBUF` (R131). -/
def execBufnext (s : State) : Answer := .next (done (setCur ((s.cur.toNat + 1) % s.params.nbuf.toNat) s))

/-- BUFPREV: `CUR <- (CUR + NBUF - 1) % NBUF` (R134). -/
def execBufprev (s : State) : Answer :=
  .next (done (setCur ((s.cur.toNat + s.params.nbuf.toNat - 1) % s.params.nbuf.toNat) s))

/-- BUFGOTO (R137). -/
def execBufgoto (index : Byte) (s : State) : Answer :=
  if IndexOutside index s.params.nbuf then .next (reject s) else .next (done (setCur index.toNat s))

end Sys2Proof.Machine
end

