-- ==== Sys2Proof/Machine/Control.lean ====
section
/-! DEFINITION. NOP and FAULTCLR (43_control.md). -/

namespace Sys2Proof.Machine

/-- NOP: `done()` (R140). -/
def execNop (s : State) : Answer := .next (done s)

/-- FAULTCLR: the fault record is cleared, `done()` (R143). -/
def execFaultclr (s : State) : Answer := .next (done (clearFault s))

end Sys2Proof.Machine
end

