-- ==== Sys2Proof/Syntax.lean ====
section
/-! DEFINITION. The twelve commands of FBRW64 version 1: one constructor per row of spec/opcode_table.json, the operands
in the order of the assembler syntax (30_encoding.md R76), each the unsigned 8-bit field of the word (R16, R68). -/

namespace Sys2Proof

/-- A command (30_encoding.md R69, R76). -/
inductive Instr where
  /-- `NOP` (43_control.md R139). -/
  | nop
  /-- `SETPIX x, y, v`: X, Y, D (40_pixel_run.md R84). -/
  | setpix (x y v : Byte)
  /-- `RUNV x, y, pattern, count`: X, Y, D, C (R90). -/
  | runv (x y pattern count : Byte)
  /-- `RUNH x, y, pattern, count`: X, Y, D, C (R96). -/
  | runh (x y pattern count : Byte)
  /-- `CLEAR x, y, w, h`: X, Y, W, H (R102). -/
  | clear (x y w h : Byte)
  /-- `FLUSH col, page, ncols, npages`: X, Y, W, H (41_transport_dma.md R111). -/
  | flush (col page ncols npages : Byte)
  /-- `CMD1 byte`: D (R117). -/
  | cmd1 (byte : Byte)
  /-- `CMD2 byte, arg`: D, C (R120). -/
  | cmd2 (byte arg : Byte)
  /-- `BUFNEXT` (42_buffer_select.md R130). -/
  | bufnext
  /-- `BUFPREV` (R133). -/
  | bufprev
  /-- `BUFGOTO index`: D (R136). -/
  | bufgoto (index : Byte)
  /-- `FAULTCLR` (43_control.md R142). -/
  | faultclr
deriving DecidableEq, Repr

end Sys2Proof
end

