-- ==== Sys2Proof/WellFormed.lean ====
section
/-! DEFINITION. Which commands are well formed: every operand in the range in which the command's own rule performs it,
neither faulting nor rejecting. Every `Instr` is encodable (its operands are the 8-bit fields themselves, R68: "A field
value outside a command's legal range is encodable and is caught by that command's checks"), so encodability needs no
check here. Written from the rules' text, not from the machine's tests; Obligations states that the two agree. -/

namespace Sys2Proof

/-- The command is performed (`done()`) on a block of `nbuf` buffers: SETPIX R87, RUNV R93, RUNH R99, CLEAR R103,
FLUSH R112, BUFGOTO R137; the other commands have no operand check. -/
def Instr.wellFormed (nbuf : Byte) : Instr → Bool
  | .nop => true
  | .setpix x y v => v.toNat ≤ 1 && x.toNat < 128 && y.toNat < 64
  | .runv x y _ count => 1 ≤ count.toNat && count.toNat ≤ 8 && x.toNat < 128 && y.toNat + count.toNat ≤ 64
  | .runh x y _ count => 1 ≤ count.toNat && count.toNat ≤ 8 && y.toNat < 64 && x.toNat + count.toNat ≤ 128
  | .clear x y w h => x.toNat + w.toNat ≤ 128 && y.toNat + h.toNat ≤ 64
  | .flush col page ncols npages => col.toNat + ncols.toNat ≤ 128 && page.toNat + npages.toNat ≤ 8
  | .cmd1 _ => true
  | .cmd2 _ _ => true
  | .bufnext => true
  | .bufprev => true
  | .bufgoto index => index.toNat < nbuf.toNat
  | .faultclr => true

end Sys2Proof
end

