-- ==== Sys2Proof/Decode.lean ====
section
/-! DEFINITION. The command word's fields, the decoder and, after it, the encoder (30_encoding.md R67 to R75). -/

namespace Sys2Proof

/-- Why a word selects no command (R71, R72). -/
inductive DecodeError where
  /-- The OP byte is not one of R69. -/
  | illegalOpcode
  /-- RSV, or a field the opcode does not use, is not 0 (R70). -/
  | reservedField
deriving DecidableEq, Repr

/-- `OP = w[63:56]` (R67). -/
def opField (w : Word64) : Byte := w.extractLsb' 56 8
/-- `D = w[47:40]` (R67, R68). -/
def dField (w : Word64) : Byte := w.extractLsb' 40 8
/-- `C = w[39:32]`. -/
def cField (w : Word64) : Byte := w.extractLsb' 32 8
/-- `X = w[31:24]`. -/
def xField (w : Word64) : Byte := w.extractLsb' 24 8
/-- `Y = w[23:16]`. -/
def yField (w : Word64) : Byte := w.extractLsb' 16 8
/-- `W = w[15:8]`. -/
def wField (w : Word64) : Byte := w.extractLsb' 8 8
/-- `H = w[7:0]`. -/
def hField (w : Word64) : Byte := w.extractLsb' 0 8

/-- `Z` of NOP, BUFNEXT, BUFPREV, FAULTCLR (R70). -/
def zeroNone : Word64 := 0x00FFFFFFFFFFFFFF
/-- `Z` of SETPIX (R70). -/
def zeroXYD : Word64 := 0x00FF00FF0000FFFF
/-- `Z` of RUNV, RUNH (R70). -/
def zeroXYDC : Word64 := 0x00FF00000000FFFF
/-- `Z` of CLEAR, FLUSH (R70). -/
def zeroXYWH : Word64 := 0x00FFFFFF00000000
/-- `Z` of CMD1, BUFGOTO (R70). -/
def zeroD : Word64 := 0x00FF00FFFFFFFFFF
/-- `Z` of CMD2 (R70). -/
def zeroDC : Word64 := 0x00FF0000FFFFFFFF

/-- One row of the opcode map: the command, unless a bit of `z` is set in the word (R71). -/
def decodeRow (z w : Word64) (i : Instr) : Except DecodeError Instr :=
  if w &&& z = 0 then .ok i else .error .reservedField

/-- Decode of a command word, in the order of R71: the opcode, then the reserved fields, then the operands. Total. -/
def decode (w : Word64) : Except DecodeError Instr :=
  let op := opField w
  if op = 0x00 then decodeRow zeroNone w .nop
  else if op = 0x01 then decodeRow zeroXYD w (.setpix (xField w) (yField w) (dField w))
  else if op = 0x02 then decodeRow zeroXYDC w (.runv (xField w) (yField w) (dField w) (cField w))
  else if op = 0x03 then decodeRow zeroXYDC w (.runh (xField w) (yField w) (dField w) (cField w))
  else if op = 0x04 then decodeRow zeroXYWH w (.clear (xField w) (yField w) (wField w) (hField w))
  else if op = 0x10 then decodeRow zeroXYWH w (.flush (xField w) (yField w) (wField w) (hField w))
  else if op = 0x11 then decodeRow zeroD w (.cmd1 (dField w))
  else if op = 0x12 then decodeRow zeroDC w (.cmd2 (dField w) (cField w))
  else if op = 0x20 then decodeRow zeroNone w .bufnext
  else if op = 0x21 then decodeRow zeroNone w .bufprev
  else if op = 0x22 then decodeRow zeroD w (.bufgoto (dField w))
  else if op = 0x3F then decodeRow zeroNone w .faultclr
  else .error .illegalOpcode

/-- The encoding function of R75, `op<<56 | 0<<48 | d<<40 | c<<32 | x<<24 | y<<16 | w<<8 | h`. -/
def enc (op d c x y w h : Byte) : Word64 :=
  op.setWidth 64 <<< 56 ||| (0 : Word64) <<< 48 ||| d.setWidth 64 <<< 40 ||| c.setWidth 64 <<< 32 |||
    x.setWidth 64 <<< 24 ||| y.setWidth 64 <<< 16 ||| w.setWidth 64 <<< 8 ||| h.setWidth 64

/-- The opcode of a command (R69). -/
def opcode : Instr → Byte
  | .nop => 0x00
  | .setpix _ _ _ => 0x01
  | .runv _ _ _ _ => 0x02
  | .runh _ _ _ _ => 0x03
  | .clear _ _ _ _ => 0x04
  | .flush _ _ _ _ => 0x10
  | .cmd1 _ => 0x11
  | .cmd2 _ _ => 0x12
  | .bufnext => 0x20
  | .bufprev => 0x21
  | .bufgoto _ => 0x22
  | .faultclr => 0x3F

/-- The word of a command: its opcode and the fields of R76, every other field 0 (R70, R75). -/
def encode (i : Instr) : Word64 :=
  match i with
  | .nop => enc (opcode i) 0 0 0 0 0 0
  | .setpix x y v => enc (opcode i) v 0 x y 0 0
  | .runv x y pattern count => enc (opcode i) pattern count x y 0 0
  | .runh x y pattern count => enc (opcode i) pattern count x y 0 0
  | .clear x y w h => enc (opcode i) 0 0 x y w h
  | .flush col page ncols npages => enc (opcode i) 0 0 col page ncols npages
  | .cmd1 byte => enc (opcode i) byte 0 0 0 0 0
  | .cmd2 byte arg => enc (opcode i) byte arg 0 0 0 0
  | .bufnext => enc (opcode i) 0 0 0 0 0 0
  | .bufprev => enc (opcode i) 0 0 0 0 0 0
  | .bufgoto index => enc (opcode i) index 0 0 0 0 0
  | .faultclr => enc (opcode i) 0 0 0 0 0 0

/-- The low half of a command word, what the host writes to CMD_LO (R49, R75). -/
def lowHalf (w : Word64) : Word32 := w.extractLsb' 0 32

/-- The high half of a command word, what the host writes to CMD_HI (R49, R75). -/
def highHalf (w : Word64) : Word32 := w.extractLsb' 32 32

/-- The command word a commit forms: `v ++ CMD_LO`, v in bits 63:32 (10_state.md R38). -/
def commandWord (hi lo : Word32) : Word64 := hi ++ lo

/-- The command word of a row of spec/opcode_table.json: its low `nbits` bits as the table numbers them, 0 above. -/
def tableWord (nbits w : Nat) : Word64 := BitVec.ofNat 64 (w % 2 ^ nbits)

/-- The command the decoder reads from a word given as spec/opcode_table.json numbers its bits, none where it refuses. -/
def decodeTableWord (nbits w : Nat) : Option Instr :=
  match decode (tableWord nbits w) with
  | .ok i => some i
  | .error _ => none

end Sys2Proof
end

