-- ==== Sys2Proof/Machine/PixelRun.lean ====
section
/-! DEFINITION. SETPIX, RUNV, RUNH and CLEAR (40_pixel_run.md). Every check comes before any write (R79). The word a
command's own check records is its encoding, the word that decoded to it (assumption log 13). -/

namespace Sys2Proof.Machine

/-- SETPIX (R85). -/
def execSetpix (x y v : Byte) (s : State) : Answer :=
  if ValueBad v then .next (raiseFault .badValue (encode (.setpix x y v)) s)
  else if PixelOutside x y then .next (raiseFault .pixelRange (encode (.setpix x y v)) s)
  else .next (done (writePixel x.toNat y.toNat (v.getLsbD 0) s))

/-- RUNV (R91). -/
def execRunv (x y pattern count : Byte) (s : State) : Answer :=
  if CountBad count then .next (raiseFault .countRange (encode (.runv x y pattern count)) s)
  else if ColumnRunOutside x y count then .next (raiseFault .pixelRange (encode (.runv x y pattern count)) s)
  else .next (done (vRun x.toNat y.toNat pattern count.toNat s))

/-- The loop of RUNH: `WritePixel(X + j, Y, D[7 - j])` for j in 0 .. n-1 (R97). -/
def hRun (x y : Nat) (pat : Byte) (n : Nat) (s : State) : State :=
  (List.range n).foldl (fun t j => writePixel (x + j) y (pat.getLsbD (7 - j)) t) s

/-- RUNH (R97). -/
def execRunh (x y pattern count : Byte) (s : State) : Answer :=
  if CountBad count then .next (raiseFault .countRange (encode (.runh x y pattern count)) s)
  else if RowRunOutside x y count then .next (raiseFault .pixelRange (encode (.runh x y pattern count)) s)
  else .next (done (hRun x.toNat y.toNat pattern count.toNat s))

/-- The inner loop of CLEAR, one column from the top: runs of `min(8, left)` rows of 0x00 (R103, D13). Run k starts at row
y + 8k with h - 8k rows left (assumption log 16). -/
def clearColumn (c y h : Nat) (s : State) : State :=
  (List.range ((h + 7) / 8)).foldl (fun t k => vRun c (y + 8 * k) 0x00 (min 8 (h - 8 * k)) t) s

/-- The loops of CLEAR, columns left to right (R103). -/
def clearRect (x y w h : Nat) (s : State) : State :=
  (List.range w).foldl (fun t j => clearColumn (x + j) y h t) s

/-- CLEAR (R103). -/
def execClear (x y w h : Byte) (s : State) : Answer :=
  if ClearOutside x y w h then .next (reject s)
  else .next (done (clearRect x.toNat y.toNat w.toNat h.toNat s))

end Sys2Proof.Machine
end

