-- ==== Sys2Proof/Machine/TransportDma.lean ====
section
/-! DEFINITION. FLUSH, CMD1, CMD2 and the Transport agent (41_transport_dma.md). -/

namespace Sys2Proof.Machine

/-- The bytes of one page's burst: `[FB[CUR][X][p], ..., FB[CUR][X+W-1][p]]` (R112). -/
def burst (s : State) (x w p : Nat) : List Byte := (List.range w).map (fun j => cell s s.cur.toNat (x + j) p)

/-- What FLUSH appends for page `p`: the cursor bytes, each a `Cmd`, then one `Data` burst; nothing when W = 0 (R112). -/
def pageGroup (s : State) (x w p : Nat) : List Transaction :=
  if w = 0 then [] else (cursorCmds s.params p x).map .cmd ++ [.data (burst s x w p)]

/-- What FLUSH appends: the pages Y .. Y+H-1, ascending (R112). -/
def flushGroups (s : State) (x y w h : Nat) : List Transaction :=
  (List.range h).flatMap (fun k => pageGroup s x w (y + k))

/-- FLUSH (R112). The framebuffer is read at the commit, so the groups are taken from `s` (R115 (e)). -/
def execFlush (col page ncols npages : Byte) (s : State) : Answer :=
  if FlushOutside col page ncols npages then .next (reject s)
  else .next (done ((flushGroups s col.toNat page.toNat ncols.toNat npages.toNat).foldl (fun t x => emit x t) s))

/-- CMD1 (R118). -/
def execCmd1 (byte : Byte) (s : State) : Answer := .next (done (emit (.cmd byte) s))

/-- CMD2 (R121). -/
def execCmd2 (byte arg : Byte) (s : State) : Answer := .next (done (emit (.cmd arg) (emit (.cmd byte) s)))

/-- The Transport step: remove the head of `OQ` and deliver it; no step when `OQ` is empty (R123, R124). -/
def transportStep (s : State) : State :=
  match s.oq with
  | [] => s
  | t :: ts => { s with oq := ts, delivered := s.delivered ++ [t] }

end Sys2Proof.Machine
end

