-- ==== Sys2Proof/Machine/Dispatch.lean ====
section
/-! DEFINITION. The Executor's choice of a meaning, one arm per command (30_encoding.md R69, R71). -/

namespace Sys2Proof.Machine

/-- Perform a decoded command. -/
def exec (i : Instr) (s : State) : Host.Outcome State Fault Refusal :=
  match i with
  | .nop => Sys2Proof.Machine.execNop s
  | .setpix x y v => Sys2Proof.Machine.execSetpix x y v s
  | .runv x y pattern count => Sys2Proof.Machine.execRunv x y pattern count s
  | .runh x y pattern count => Sys2Proof.Machine.execRunh x y pattern count s
  | .clear x y w h => Sys2Proof.Machine.execClear x y w h s
  | .flush col page ncols npages => Sys2Proof.Machine.execFlush col page ncols npages s
  | .cmd1 byte => Sys2Proof.Machine.execCmd1 byte s
  | .cmd2 byte arg => Sys2Proof.Machine.execCmd2 byte arg s
  | .bufnext => Sys2Proof.Machine.execBufnext s
  | .bufprev => Sys2Proof.Machine.execBufprev s
  | .bufgoto index => Sys2Proof.Machine.execBufgoto index s
  | .faultclr => Sys2Proof.Machine.execFaultclr s

end Sys2Proof.Machine
end

