-- ==== Sys2Proof/Machine/Window.lean ====
section
/-! DEFINITION. The host register window (20_memory.md), the commit (10_state.md R38), the reset input
(70_reset_and_hazards.md R164), and the serving of one input. -/

namespace Sys2Proof.Machine

/-! ## Reads -/

/-- The byte of FBWIN at `a` bytes past 0x400: `FB[CUR][a % 128][a / 128]` (R48, R50). -/
def fbwinByte (s : State) (a : Nat) : Byte := cell s s.cur.toNat (a % 128) (a / 128)

/-- An n-byte little-endian read of FBWIN at `a` bytes past 0x400 (R49, R50). -/
def fbwinValue (s : State) (a : Nat) : Nat → Word32
  | 0 => 0
  | k + 1 => fbwinValue s a k ||| (fbwinByte s (a + k)).setWidth 32 <<< (8 * k)

/-- The value of a read that is served, none for a bad access (R44, R45, R51): FBWIN at a multiple of the size; a
register as 4 bytes at its own offset; CMD_LO and CMD_HI read 0 (10_state.md R36, R37). -/
def readValue (s : State) (off : Nat) (n : Size) : Option Word32 :=
  if 0x400 ≤ off ∧ off < 0x800 then
    if off % sizeBytes n = 0 then some (fbwinValue s (off - 0x400) (sizeBytes n)) else none
  else if n ≠ .word then none
  else if off = 0x000 then some (statusWord s)
  else if off = 0x004 then some (lowHalf s.fcmd)
  else if off = 0x008 then some (highHalf s.fcmd)
  else if off = 0x010 then some 0
  else if off = 0x014 then some 0
  else none

/-- The value a host read returns. -/
def respond (v : Word32) (s : State) : State := { s with responses := s.responses ++ [v] }

/-- A host read: the value, or 0 and `BAD_ACCESS` (60_exceptions.md R147). -/
def hostRead (off : Offset) (n : Size) (s : State) : State :=
  match readValue s off.toNat n with
  | some v => respond v s
  | none => respond 0 (raiseFault .badAccess (accessDescriptor false n off) s)

/-! ## Writes and the commit -/

/-- A write of CMD_LO: it stores the value and has no other effect (10_state.md R36). -/
def stageLow (v : Word32) (s : State) : State := { s with cmdLo := v }

/-- The Executor: decode the word and perform the command, or raise the decoder's fault (30_encoding.md R71). -/
def executeWord (w : Word64) (s : State) : Answer :=
  match decode w with
  | .ok i => exec i s
  | .error .illegalOpcode => .next (raiseFault .illegalOpcode w s)
  | .error .reservedField => .next (raiseFault .reservedField w s)

/-- A commit of the high half `v` (10_state.md R38, 60_exceptions.md R148, R149, R153). -/
def commit (v : Word32) (s : State) : Answer :=
  let w := commandWord v s.cmdLo
  if s.fault = true ∧ opField w ≠ 0x3F then .next s
  else if busy s then .next (raiseFault .overrun w s)
  else executeWord w s

/-- A host write: CMD_LO, CMD_HI, or `BAD_ACCESS` with nothing else changed (R45, R51, R147, R149). -/
def hostWrite (off : Offset) (n : Size) (v : Word32) (s : State) : Answer :=
  if n = .word ∧ off.toNat = 0x010 then .next (stageLow v s)
  else if n = .word ∧ off.toNat = 0x014 then commit v s
  else .next (raiseFault .badAccess (accessDescriptor true n off) s)

/-! ## Reset and the serving of one input -/

/-- The reset input: every element at its value in R41, `OQ` discarded, the framebuffer's contents unspecified anew. What
the display was handed, what reads returned, the build and what is still to come are no state of the block
(R164, R127; assumption log 9). -/
def resetInput (s : State) : State :=
  { State.resetWith s.params (s.powerOn + 1) with
    delivered := s.delivered, responses := s.responses, inputs := s.inputs }

/-- Serve one input, atomically (20_memory.md R55). -/
def serve (e : Input) (s : State) : Answer :=
  match e with
  | .read off n => .next (hostRead off n s)
  | .write off n v => hostWrite off n v s
  | .transport => .next (transportStep s)
  | .reset => .next (resetInput s)

/-- Take an input off the list. -/
def setInputs (l : List Input) (s : State) : State := { s with inputs := l }

/-- Serve the next input; with none left only the Transport can move (41_transport_dma.md R123, R125; assumption log 5). -/
def serveNext (s : State) : Answer :=
  match s.inputs with
  | [] => .next (transportStep s)
  | e :: rest => serve e (setInputs rest s)

end Sys2Proof.Machine
end

