-- ==== Sys2Proof/Machine/Step.lean ====
section
/-! DEFINITION. One step of the machine, and how a command is put where the next step takes it. -/

namespace Sys2Proof.Machine

/-- One step: the next input in the total order of 20_memory.md R55. -/
def step (s : State) : Host.Outcome State Fault Refusal := serveNext s

/-- The block fetches nothing (10_state.md R23): a command comes as the host's write of CMD_HI with the low half staged in
CMD_LO. So the word's low half is placed in CMD_LO and the commit of its high half becomes the next input
(assumption log 7). -/
def State.withFetchWord (s : State) (nbits w : Nat) : State :=
  { s with
    cmdLo := lowHalf (tableWord nbits w)
    inputs := .write 0x014 .word (highHalf (tableWord nbits w)) :: s.inputs }

end Sys2Proof.Machine
end

