-- ==== Sys2Proof/Machine/Sink.lean ====
section
/-! DEFINITION. The informative reference sink of 93_implementation_defined.md section 3, a function over the delivered
transactions. It is no part of the block and no part of State (10_state.md R40, 41_transport_dma.md R128): no step reads
it. From general knowledge, not normative (PRESUMED, assumption log 20). -/

namespace Sys2Proof.Machine

/-- The sink: its RAM as written bytes by key `page * 132 + column`, its page and column, and whether it waits for an
argument byte. -/
structure Sink where
  ram : Memory
  pg : Nat
  col : Nat
  awaiting : Bool
deriving DecidableEq, Repr

/-- The byte the sink holds at a page and column, none where none was written. -/
def sinkRam (k : Sink) (p c : Nat) : Option Byte := memRead k.ram (p * 132 + c)

/-- `on Cmd(b)`. -/
def sinkCmd (k : Sink) (b : Byte) : Sink :=
  if k.awaiting then { k with awaiting := false }
  else if 0xB0 ≤ b.toNat ∧ b.toNat ≤ 0xB7 then { k with pg := (b &&& 0x07).toNat }
  else if b.toNat ≤ 0x0F then { k with col := (k.col &&& 0xF0) ||| b.toNat }
  else if b.toNat ≤ 0x1F then { k with col := ((b.toNat &&& 0x0F) <<< 4) ||| (k.col &&& 0x0F) }
  else { k with awaiting := Config.sinkTakesArgument b }

/-- One byte of `on Data(bs)`. -/
def sinkByte (k : Sink) (v : Byte) : Sink :=
  { k with ram := if k.col < 132 then memWrite k.ram (k.pg * 132 + k.col) v else k.ram, col := k.col + 1 }

/-- The sink after one transaction. -/
def sinkStep (k : Sink) : Transaction → Sink
  | .cmd b => sinkCmd k b
  | .data bs => bs.foldl sinkByte k

/-- The sink after a list of transactions, oldest first. -/
def sinkRun (k : Sink) (l : List Transaction) : Sink := l.foldl sinkStep k

end Sys2Proof.Machine
end

