-- ==== Sys2Proof/Safety.lean ====
section
/-! DEFINITION. What claims speak of: the legal builds, the invariant of the machine, safe states, what leaves the
framebuffer alone, and the words claims are written with (a commit about to be served, a recorded fault, the accesses
that are served), each from the spec's text and not from the machine's own definitions. -/

namespace Sys2Proof.Machine

/-- A legal build: `NBUF` is in [1,255] (00_scope.md R11). `COL_OFFSET` in [0,4] and non-empty `CURSOR_CMDS` hold by
their types (R13, R14). -/
abbrev LegalBuild (p : Params) : Prop := p.nbuf.toNat ≥ 1

/-- No `Data` burst is empty: "one burst of one or more display-data bytes" (00_scope.md R20). -/
abbrev BurstsNonempty (l : List Transaction) : Prop := ∀ t ∈ l, t ≠ .data []

/-- The fault record agrees with FAULT: no record while FAULT is 0, and while it is 1 a cause code of R146 other than 0
(10_state.md R34, R35; "Codes 8 to 255 are never written"). -/
abbrev RecordAgrees (s : State) : Prop :=
  (s.fault = false → s.fcause = 0 ∧ s.fcmd = 0) ∧ (s.fault = true → ∃ c : Cause, s.fcause = causeCode c)

/-- The invariant of the machine. -/
structure State.Inv (s : State) : Prop where
  /-- The build is legal. -/
  legal : LegalBuild s.params
  /-- `CUR < NBUF` at every point (10_state.md R27). -/
  cur_lt : s.cur.toNat < s.params.nbuf.toNat
  /-- The store keeps its canonical form. -/
  cells_wf : Memory.wf s.cells
  /-- Only cells of the `NBUF` buffers have been written (R24). -/
  cells_in : ∀ e ∈ s.cells, e.1 < s.params.nbuf.toNat * 1024
  /-- The fault record agrees with FAULT. -/
  record : RecordAgrees s
  /-- What is queued has no empty burst. -/
  oq_bursts : BurstsNonempty s.oq
  /-- What was delivered has no empty burst. -/
  delivered_bursts : BurstsNonempty s.delivered

/-- A safe state: no fault is recorded, so commits are performed (60_exceptions.md R152, R153). -/
abbrev Safe (s : State) : Prop := s.fault = false

/-- Every byte of the framebuffer store, of every buffer, reads the same. -/
abbrev SameStore (s t : State) : Prop := ∀ a, byteAt t a = byteAt s a

/-- The next input commits the word `w`: a 32-bit write to CMD_HI, with CMD_LO in the low half (10_state.md R38). -/
abbrev Committing (s : State) (w : Word64) (rest : List Input) : Prop :=
  ∃ v : Word32, s.inputs = .write 0x014 .word v :: rest ∧ w = commandWord v s.cmdLo

/-- The state with fault `code`, `info` recorded unless a record stands already (60_exceptions.md R151). -/
abbrev withRecord (s : State) (code : Byte) (info : Word64) : State :=
  if s.fault = true then s else { s with fault := true, fcause := code, fcmd := info }

/-- The reads that are served (20_memory.md R44, R51): a register as 4 bytes at its offset, FBWIN as 1, 2 or 4 bytes at a
multiple of the size. -/
abbrev ReadServed (off : Offset) (n : Size) : Prop :=
  (n = .word ∧ (off = 0x000 ∨ off = 0x004 ∨ off = 0x008 ∨ off = 0x010 ∨ off = 0x014)) ∨
    (0x400 ≤ off.toNat ∧ off.toNat ≤ 0x7FF ∧ off.toNat % sizeBytes n = 0)

/-- The writes that are served (R44, R51): 4 bytes at CMD_LO or CMD_HI. -/
abbrev WriteServed (off : Offset) (n : Size) : Prop := n = .word ∧ (off = 0x010 ∨ off = 0x014)

/-- The bad-access descriptor as a number (60_exceptions.md R147). -/
abbrev descriptorNat (isWrite : Bool) (n : Size) (off : Offset) : Nat :=
  (if isWrite then 2 ^ 31 else 0) + sizeBytes n * 2 ^ 16 + off.toNat

/-- Perform commands one after another, stopping where one does not answer a next state. -/
def execAll : List Instr → State → Answer
  | [], s => .next s
  | i :: l, s =>
    match exec i s with
    | .next t => execAll l t
    | .fault r => .fault r
    | .refused r => .refused r

/-- The display-data bytes of a list of transactions, in order (00_scope.md R20). -/
def dataBytes : List Transaction → List Byte
  | [] => []
  | .cmd _ :: l => dataBytes l
  | .data bs :: l => bs ++ dataBytes l

/-- The opcodes of 30_encoding.md R69 with the bits that must be 0, `Z` of R70. -/
def reservedRows : List (Byte × Word64) :=
  [(0x00, 0x00FFFFFFFFFFFFFF), (0x01, 0x00FF00FF0000FFFF), (0x02, 0x00FF00000000FFFF), (0x03, 0x00FF00000000FFFF),
    (0x04, 0x00FFFFFF00000000), (0x10, 0x00FFFFFF00000000)] ++
  [(0x11, 0x00FF00FFFFFFFFFF), (0x12, 0x00FF0000FFFFFFFF), (0x20, 0x00FFFFFFFFFFFFFF), (0x21, 0x00FFFFFFFFFFFFFF),
    (0x22, 0x00FF00FFFFFFFFFF), (0x3F, 0x00FFFFFFFFFFFFFF)]

end Sys2Proof.Machine
end

