-- ==== Sys2Proof/Certificates/Slice0/Obligations.lean ====
section
/-! DEFINITION. The statements for the provers, from the numbered rules of spec/. -/

open Sys2Proof Sys2Proof.Machine

/-! ## Encoding (30_encoding.md) -/

/-- Decode and encode agree, for every command with every operand at every value of its 8-bit field (R71, R75). -/
def Obligations.DecodeOfEncodeIsTheCommand : Prop := ∀ i : Instr, decode (encode i) = .ok i

/-- A word that decodes is the encoding of what it decodes to: no bit of a word is dropped, so the word a command's own
checks record is the word that was committed (R70, R75; assumption log 13). -/
def Obligations.EncodeOfDecodeIsTheWord : Prop := ∀ (w : Word64) (i : Instr), decode w = .ok i → encode i = w

/-- The Executor on any word (R71, R72): an unlisted OP, then a reserved field that is not 0, then the command whose word
it is. -/
def Obligations.ExecutorSortsEveryWord : Prop :=
  ∀ (w : Word64) (s : State),
    ((∀ r ∈ reservedRows, r.1 ≠ opField w) → executeWord w s = .next (withRecord s 1 w)) ∧
    (∀ r ∈ reservedRows, r.1 = opField w →
      (w &&& r.2 ≠ 0 → executeWord w s = .next (withRecord s 2 w)) ∧
      (w &&& r.2 = 0 → ∃ i, opcode i = opField w ∧ encode i = w ∧ executeWord w s = exec i s))

/-- Words written out from the encoding tables (R67, R69, R75; the words of 95_test_vectors.md) decode to their commands. -/
def Obligations.SpecWordsDecode : Prop :=
  decode 0x0000000000000000 = .ok .nop ∧ decode 0x01000100050A0000 = .ok (.setpix 5 10 1) ∧
  decode 0x02001F0503060000 = .ok (.runv 3 6 0x1F 5) ∧ decode 0x0300A0040A030000 = .ok (.runh 10 3 0xA0 4) ∧
  decode 0x0400000000008040 = .ok (.clear 0 0 128 64) ∧ decode 0x1000000004020201 = .ok (.flush 4 2 2 1) ∧
  decode 0x1100AF0000000000 = .ok (.cmd1 0xAF) ∧ decode 0x1200817F00000000 = .ok (.cmd2 0x81 0x7F) ∧
  decode 0x2000000000000000 = .ok .bufnext ∧ decode 0x2100000000000000 = .ok .bufprev ∧
  decode 0x2200020000000000 = .ok (.bufgoto 2) ∧ decode 0x3F00000000000000 = .ok .faultclr ∧
  decode 0x0500000000000000 = .error .illegalOpcode ∧ decode 0x0180010000000000 = .error .reservedField

/-! ## The commit and the step -/

/-- A step runs the decoded command: the next input commits a word, nothing is queued, the block is not halted for that
word, and the word decodes to `i`; then the step is `exec i` with that input taken off (10_state.md section 7, R38). -/
def Obligations.StepRunsTheDecodedCommand : Prop :=
  ∀ (s : State) (w : Word64) (rest : List Input) (i : Instr), Committing s w rest → s.oq = [] →
    (s.fault = true → opField w = 0x3F) → decode w = .ok i → step s = exec i { s with inputs := rest }

/-- The commit (10_state.md R38): discarded while faulted unless OP is 0x3F, else `OVERRUN` (code 6) while BUSY, else
handed to the Executor; CMD_LO keeps its value. -/
def Obligations.CommitDiscardsOverrunsOrExecutes : Prop :=
  ∀ (s : State) (w : Word64) (rest : List Input), Committing s w rest →
    (s.fault = true ∧ opField w ≠ 0x3F → step s = .next { s with inputs := rest }) ∧
    (¬ (s.fault = true ∧ opField w ≠ 0x3F) → s.oq ≠ [] →
      step s = .next (withRecord { s with inputs := rest } 6 w)) ∧
    (¬ (s.fault = true ∧ opField w ≠ 0x3F) → s.oq = [] → step s = executeWord w { s with inputs := rest }) ∧
    (∀ t, step s = .next t → t.cmdLo = s.cmdLo)

/-- A word of opcode 0x3F that is no FAULTCLR, or any word of opcode 0x3F while BUSY, leaves a faulted block as it is
(43_control.md R144, 60_exceptions.md R155, C10). -/
def Obligations.UnservedFaultclrKeepsTheRecord : Prop :=
  ∀ (s : State) (w : Word64) (rest : List Input), Committing s w rest → s.fault = true → opField w = 0x3F →
    (w ≠ 0x3F00000000000000 ∨ s.oq ≠ []) → step s = .next { s with inputs := rest }

/-- The other inputs: a step serves the first and takes it off; with none left it is the Transport's (20_memory.md R55,
41_transport_dma.md R123; the last clause is the model's choice, assumption log 5). -/
def Obligations.StepServesTheFirstInput : Prop :=
  ∀ (s : State) (rest : List Input),
    (∀ off n, s.inputs = .read off n :: rest → step s = .next (hostRead off n { s with inputs := rest })) ∧
    (∀ off n v, s.inputs = .write off n v :: rest → step s = hostWrite off n v { s with inputs := rest }) ∧
    (s.inputs = .transport :: rest → step s = .next (transportStep { s with inputs := rest })) ∧
    (s.inputs = .reset :: rest → step s = .next (resetInput { s with inputs := rest })) ∧
    (s.inputs = [] → step s = .next (transportStep s))

/-- The word of a command placed for the next step is what that step runs (assumption log 7). -/
def Obligations.PlacedWordRunsNext : Prop :=
  ∀ (s : State) (i : Instr), s.fault = false → s.oq = [] →
    step (s.withFetchWord 64 (encode i).toNat) = exec i { s with cmdLo := lowHalf (encode i) }

/-- Every step answers a next state: no word, access or command stops the machine (R71, R145; assumption log 18). -/
def Obligations.EveryStepAnswersANextState : Prop := ∀ s : State, ∃ t, step s = .next t

/-! ## Faults (60_exceptions.md) -/

/-- Fault entry (R151): the cause and the info are recorded if FAULT was 0, nothing is written otherwise; and it ends the
command or the access, so that a write or a read that records a fault does fault entry and nothing else (a read also
returns its 0). -/
def Obligations.FaultEntryKeepsTheFirstRecord : Prop :=
  (∀ (c : Cause) (info : Word64) (s : State),
    (s.fault = false →
      raiseFault c info s = { s with fault := true, fcause := causeCode c, fcmd := info }) ∧
    (s.fault = true → raiseFault c info s = s)) ∧
  (∀ (off : Offset) (n : Size) (v : Word32) (s t : State), hostWrite off n v s = .next t → s.fault = false →
    t.fault = true → ∃ c info, t = raiseFault c info s) ∧
  (∀ (off : Offset) (n : Size) (s : State), s.fault = false → (hostRead off n s).fault = true →
    ∃ c info, hostRead off n s = { raiseFault c info s with responses := s.responses ++ [0] })

/-- A recorded fault stays, record and all, until a FAULTCLR is performed or the block is reset (R31, R34, R155, R164). -/
def Obligations.FaultRecordStaysUntilCleared : Prop :=
  ∀ s t : State, step s = .next t → s.fault = true →
    (t.fault = true ∧ t.fcause = s.fcause ∧ t.fcmd = s.fcmd) ∨
    (t.fault = false ∧ t.fcause = 0 ∧ t.fcmd = 0 ∧
      ((∃ rest, s.inputs = .reset :: rest) ∨
        (s.oq = [] ∧ ∃ rest, Committing s 0x3F00000000000000 rest)))

/-- Faults are precise (R151, R152): a step that records one leaves every cell, CUR, REJ, CMD_LO, OQ and the output stream
as they were, and the cause is one of codes 1 to 7. -/
def Obligations.FaultsArePrecise : Prop :=
  ∀ s t : State, step s = .next t → s.fault = false → t.fault = true →
    (1 ≤ t.fcause.toNat ∧ t.fcause.toNat ≤ 7) ∧ ∃ rs, t.responses = s.responses ++ rs ∧
      t = { s with
        fault := true, fcause := t.fcause, fcmd := t.fcmd, responses := t.responses, inputs := s.inputs.tail }

/-- A well-formed command is performed, and one that is not is rejected or faults with its own word and no other effect
(R145). -/
def Obligations.WellFormedCommandsArePerformed : Prop :=
  ∀ (i : Instr) (s : State), ∃ t, exec i s = .next t ∧
    (i.wellFormed s.params.nbuf = true →
      t.rej = false ∧ (i ≠ .faultclr → t.fault = s.fault ∧ t.fcause = s.fcause ∧ t.fcmd = s.fcmd)) ∧
    (i.wellFormed s.params.nbuf = false →
      t = { s with rej := true } ∨ ∃ code : Byte, (3 ≤ code.toNat ∧ code.toNat ≤ 5) ∧ t = withRecord s code (encode i))

/-! ## Pixel, run and clear commands (40_pixel_run.md) -/

/-- SETPIX (R85, R86, R87): the value check, then the range check, else one pixel of buffer CUR and nothing else but
REJ. -/
def Obligations.SetpixWritesOnePixel : Prop :=
  ∀ (x y v : Byte) (s : State),
    (v.toNat ≤ 1 → x.toNat < 128 → y.toNat < 64 →
      ∃ t, exec (.setpix x y v) s = .next t ∧ t = { s with cells := t.cells, rej := false } ∧
        pixel t s.cur.toNat x.toNat y.toNat = decide (v = 1) ∧
        (∀ b x' y', x' < 128 → y' < 64 → ¬ (b = s.cur.toNat ∧ x' = x.toNat ∧ y' = y.toNat) →
          pixel t b x' y' = pixel s b x' y') ∧
        (∀ a, a ≠ curKey s x.toNat (y.toNat / 8) → byteAt t a = byteAt s a)) ∧
    (v.toNat > 1 → exec (.setpix x y v) s = .next (withRecord s 3 (encode (.setpix x y v)))) ∧
    (v.toNat ≤ 1 → (x.toNat ≥ 128 ∨ y.toNat ≥ 64) →
      exec (.setpix x y v) s = .next (withRecord s 5 (encode (.setpix x y v))))

/-- RUNV (R91, R92, R93): the count check, then the range check, else pixel (X, Y+i) takes D[i] for i < C and nothing else
changes but REJ. -/
def Obligations.RunvWritesTheColumnSpan : Prop :=
  ∀ (x y pat c : Byte) (s : State),
    (1 ≤ c.toNat → c.toNat ≤ 8 → x.toNat < 128 → y.toNat + c.toNat ≤ 64 →
      ∃ t, exec (.runv x y pat c) s = .next t ∧ t = { s with cells := t.cells, rej := false } ∧
        (∀ i < c.toNat, pixel t s.cur.toNat x.toNat (y.toNat + i) = pat.getLsbD i) ∧
        (∀ b x' y', x' < 128 → y' < 64 →
          ¬ (b = s.cur.toNat ∧ x' = x.toNat ∧ y.toNat ≤ y' ∧ y' < y.toNat + c.toNat) →
          pixel t b x' y' = pixel s b x' y') ∧
        (∀ a, a ≠ curKey s x.toNat (y.toNat / 8) →
          (y.toNat % 8 + c.toNat > 8 → a ≠ curKey s x.toNat (y.toNat / 8 + 1)) → byteAt t a = byteAt s a)) ∧
    ((c.toNat < 1 ∨ c.toNat > 8) →
      exec (.runv x y pat c) s = .next (withRecord s 4 (encode (.runv x y pat c)))) ∧
    (1 ≤ c.toNat → c.toNat ≤ 8 → (x.toNat ≥ 128 ∨ y.toNat ≥ 64 ∨ y.toNat + c.toNat > 64) →
      exec (.runv x y pat c) s = .next (withRecord s 5 (encode (.runv x y pat c))))

/-- RUNH (R97, R98, R99): the count check, then the range check, else pixel (X+j, Y) takes D[7-j] for j < C and nothing
else changes but REJ. -/
def Obligations.RunhWritesTheRowSpan : Prop :=
  ∀ (x y pat c : Byte) (s : State),
    (1 ≤ c.toNat → c.toNat ≤ 8 → y.toNat < 64 → x.toNat + c.toNat ≤ 128 →
      ∃ t, exec (.runh x y pat c) s = .next t ∧ t = { s with cells := t.cells, rej := false } ∧
        (∀ j < c.toNat, pixel t s.cur.toNat (x.toNat + j) y.toNat = pat.getLsbD (7 - j)) ∧
        (∀ b x' y', x' < 128 → y' < 64 →
          ¬ (b = s.cur.toNat ∧ y' = y.toNat ∧ x.toNat ≤ x' ∧ x' < x.toNat + c.toNat) →
          pixel t b x' y' = pixel s b x' y') ∧
        (∀ a, (∀ j < c.toNat, a ≠ curKey s (x.toNat + j) (y.toNat / 8)) → byteAt t a = byteAt s a)) ∧
    ((c.toNat < 1 ∨ c.toNat > 8) →
      exec (.runh x y pat c) s = .next (withRecord s 4 (encode (.runh x y pat c)))) ∧
    (1 ≤ c.toNat → c.toNat ≤ 8 → (x.toNat ≥ 128 ∨ y.toNat ≥ 64 ∨ x.toNat + c.toNat > 128) →
      exec (.runh x y pat c) s = .next (withRecord s 5 (encode (.runh x y pat c))))

/-- CLEAR (R104, R105): rejected out of bounds with no other effect, else the rectangle is 0 and every other pixel of
every buffer, and everything else but REJ, is unchanged. -/
def Obligations.ClearZeroesTheRectangle : Prop :=
  ∀ (x y w h : Byte) (s : State),
    (x.toNat + w.toNat ≤ 128 → y.toNat + h.toNat ≤ 64 →
      ∃ t, exec (.clear x y w h) s = .next t ∧ t = { s with cells := t.cells, rej := false } ∧
        (∀ x' y', x.toNat ≤ x' → x' < x.toNat + w.toNat → y.toNat ≤ y' → y' < y.toNat + h.toNat →
          pixel t s.cur.toNat x' y' = false) ∧
        (∀ b x' y', x' < 128 → y' < 64 →
          ¬ (b = s.cur.toNat ∧ x.toNat ≤ x' ∧ x' < x.toNat + w.toNat ∧ y.toNat ≤ y' ∧ y' < y.toNat + h.toNat) →
          pixel t b x' y' = pixel s b x' y') ∧
        (∀ a, (∀ j < w.toNat, ∀ p, y.toNat / 8 ≤ p → 8 * p < y.toNat + h.toNat → a ≠ curKey s (x.toNat + j) p) →
          byteAt t a = byteAt s a)) ∧
    ((x.toNat + w.toNat > 128 ∨ y.toNat + h.toNat > 64) →
      exec (.clear x y w h) s = .next { s with rej := true })

/-- A vertical run is the SETPIX of its pixels in turn (R82): same bytes everywhere, same everything else. -/
def Obligations.RunvEqualsItsPixels : Prop :=
  ∀ (x y pat c : Byte) (s : State),
    1 ≤ c.toNat → c.toNat ≤ 8 → x.toNat < 128 → y.toNat + c.toNat ≤ 64 →
      ∃ t u, exec (.runv x y pat c) s = .next t ∧
        execAll ((List.range c.toNat).map fun i =>
          .setpix x (BitVec.ofNat 8 (y.toNat + i)) (if pat.getLsbD i then 1 else 0)) s = .next u ∧
        SameStore t u ∧ u = { t with cells := u.cells }

/-- A horizontal run is the SETPIX of its pixels in turn, bit 7 leftmost (R97): same bytes everywhere, same everything
else. -/
def Obligations.RunhEqualsItsPixels : Prop :=
  ∀ (x y pat c : Byte) (s : State),
    1 ≤ c.toNat → c.toNat ≤ 8 → y.toNat < 64 → x.toNat + c.toNat ≤ 128 →
      ∃ t u, exec (.runh x y pat c) s = .next t ∧
        execAll ((List.range c.toNat).map fun j =>
          .setpix (BitVec.ofNat 8 (x.toNat + j)) y (if pat.getLsbD (7 - j) then 1 else 0)) s = .next u ∧
        SameStore t u ∧ u = { t with cells := u.cells }

/-- SETPIX 1 then SETPIX 0 leaves the pixel 0 and the other bits of the cell alone; it restores the cell exactly when the
pixel was 0 (R88 (b), C5). -/
def Obligations.SetThenClearRestoresAClearPixel : Prop :=
  ∀ (x y : Byte) (s : State), x.toNat < 128 → y.toNat < 64 →
    ∃ t, execAll [.setpix x y 1, .setpix x y 0] s = .next t ∧
      pixel t s.cur.toNat x.toNat y.toNat = false ∧
      (∀ i < 8, i ≠ y.toNat % 8 → (cell t s.cur.toNat x.toNat (y.toNat / 8)).getLsbD i =
        (cell s s.cur.toNat x.toNat (y.toNat / 8)).getLsbD i) ∧
      (cell t s.cur.toNat x.toNat (y.toNat / 8) = cell s s.cur.toNat x.toNat (y.toNat / 8) ↔
        pixel s s.cur.toNat x.toNat y.toNat = false)

/-- After CLEAR 0, 0, 128, 64 every read of the framebuffer window that is served returns 0 (R107 (d), R50). -/
def Obligations.ClearAllReadsBackZero : Prop :=
  ∀ s t : State, exec (.clear 0 0 128 64) s = .next t →
    ∀ (off : Offset) (n : Size), 0x400 ≤ off.toNat → off.toNat ≤ 0x7FF → off.toNat % sizeBytes n = 0 →
      ∀ rest, hostRead off n { t with inputs := rest } =
        { t with responses := t.responses ++ [0], inputs := rest }

/-! ## Display-region DMA and transport (41_transport_dma.md) -/

/-- FLUSH (R112, R113): rejected out of bounds with no other effect, else per page the cursor bytes and one burst of the
page's cells in buffer CUR, pages and columns ascending; nothing else but REJ changes. -/
def Obligations.FlushQueuesTheRegion : Prop :=
  ∀ (x y w h : Byte) (s : State),
    (x.toNat + w.toNat ≤ 128 → y.toNat + h.toNat ≤ 8 →
      ∃ t, exec (.flush x y w h) s = .next t ∧ t = { s with oq := t.oq, rej := false } ∧
        t.oq = s.oq ++ (List.range h.toNat).flatMap (fun k =>
          if w.toNat > 0 then
            (cursorCmds s.params (y.toNat + k) x.toNat).map .cmd ++
              [.data ((List.range w.toNat).map fun j => cell s s.cur.toNat (x.toNat + j) (y.toNat + k))]
          else []) ∧
        (s.oq = [] → (busy t = true ↔ w.toNat > 0 ∧ h.toNat > 0))) ∧
    ((x.toNat + w.toNat > 128 ∨ y.toNat + h.toNat > 8) → exec (.flush x y w h) s = .next { s with rej := true })

/-- CURSOR_CMDS is never empty, and without entries of the build's own it is the default of D16, as numbers (R13; the
default is general knowledge the spec marks as its own, assumption log 12). -/
def Obligations.CursorCommandsByDefault : Prop :=
  ∀ p : Params, (∀ page col, cursorCmds p page col ≠ []) ∧
    (p.cursorTable = [] → ∀ page < 8, ∀ col < 128,
      (cursorCmds p page col).map BitVec.toNat =
        [0xB0 + page, (col + p.colOffset.val) % 16, 0x10 + (col + p.colOffset.val) / 16])

/-- A full flush sends the bytes of a full read of the framebuffer window in ascending order (20_memory.md R48, R115 (b)):
the bytes sent are 1024, and the one at `a` is what a 1-byte read at 0x400 + a returns. -/
def Obligations.FullFlushSendsTheWindow : Prop :=
  ∀ s t : State, exec (.flush 0 0 128 8) s = .next t →
    ∃ new, t.oq = s.oq ++ new ∧ (dataBytes new).length = 1024 ∧
      ∀ a < 1024, ∃ v, (dataBytes new)[a]? = some v ∧
        hostRead (BitVec.ofNat 12 (0x400 + a)) .byte s = { s with responses := s.responses ++ [v.setWidth 32] }

/-- CMD1 and CMD2 (R118, R121): the bytes are appended unchanged, each as a command transaction; nothing else but REJ
changes. -/
def Obligations.CommandBytesAreQueued : Prop :=
  ∀ (b a : Byte) (s : State),
    exec (.cmd1 b) s = .next { s with oq := s.oq ++ [.cmd b], rej := false } ∧
    exec (.cmd2 b a) s = .next { s with oq := s.oq ++ [.cmd b, .cmd a], rej := false }

/-- Which commands leave the block busy (70_reset_and_hazards.md R169): from an empty queue, only CMD1, CMD2 and a FLUSH of
a non-empty region in bounds. -/
def Obligations.OnlyTransportCommandsSetBusy : Prop :=
  ∀ (i : Instr) (s t : State), s.oq = [] → exec i s = .next t →
    (busy t = true ↔ (∃ b, i = .cmd1 b) ∨ (∃ b a, i = .cmd2 b a) ∨
      ∃ x y w h : Byte, i = .flush x y w h ∧ x.toNat + w.toNat ≤ 128 ∧ y.toNat + h.toNat ≤ 8 ∧
        w.toNat > 0 ∧ h.toNat > 0)

/-- The Transport step (R123, R124): it removes the head of OQ and delivers it, nothing else changes. With OQ empty R123
gives no step; that the model's step then only takes the input off is its own reading (assumption log 6, DEDUCED). -/
def Obligations.TransportDeliversTheHead : Prop :=
  ∀ (s : State) (rest : List Input), s.inputs = .transport :: rest →
    (∀ x l, s.oq = x :: l →
      step s = .next { s with oq := l, delivered := s.delivered ++ [x], inputs := rest }) ∧
    (s.oq = [] → step s = .next { s with inputs := rest })

/-- With nothing more from outside, as many steps as there are transactions deliver them all in order (R57, R125; steps
are the model's, not time: assumption log 5). -/
def Obligations.QueueDrainsInOrder : Prop :=
  ∀ s : State, s.inputs = [] →
    Host.Core.run Sys2Proof.core s.oq.length s =
      .next { s with oq := [], delivered := s.delivered ++ s.oq }

/-- Whatever the host still does, short of a reset, every queued transaction is delivered, in the order it was queued and
before any that is queued later (R57, R125). Once no input is left the steps are the Transport's, the model's choice, and
they are no measure of time (assumption log 5). -/
def Obligations.EveryTransactionIsDelivered : Prop :=
  ∀ s : State, (∀ e ∈ s.inputs, e ≠ .reset) →
    ∃ k t, Host.Core.run Sys2Proof.core k s = .next t ∧ t.oq = [] ∧ t.inputs = [] ∧
      s.delivered ++ s.oq <+: t.delivered

/-- The output stream only grows (R39, R57): short of a reset, a step leaves what was delivered and what was queued in
place, and it adds to them only when it performs FLUSH, CMD1 or CMD2. -/
def Obligations.StreamOnlyGrows : Prop :=
  ∀ s t : State, step s = .next t → (∀ rest, s.inputs ≠ .reset :: rest) →
    ∃ new, t.delivered ++ t.oq = s.delivered ++ s.oq ++ new ∧
      (new ≠ [] → ∃ w rest i, Committing s w rest ∧ decode w = .ok i ∧ s.oq = [] ∧ s.fault = false ∧
        ((∃ b, i = .cmd1 b) ∨ (∃ b a, i = .cmd2 b a) ∨ ∃ x y w h, i = .flush x y w h))

/-- The flush snapshot (20_memory.md R58): while anything is queued no step short of a reset changes a cell or CUR. -/
def Obligations.NothingIsDrawnWhileBusy : Prop :=
  ∀ s t : State, s.oq ≠ [] → step s = .next t → (∀ rest, s.inputs ≠ .reset :: rest) →
    SameStore s t ∧ t.cur = s.cur

/-- The informative reference sink (93_implementation_defined.md section 3, not normative, assumption log 20, log 12): with the
default CURSOR_CMDS, a flush in bounds leaves the region's cells in the sink's RAM at column + COL_OFFSET. -/
def Obligations.ReferenceSinkShowsTheRegion : Prop :=
  ∀ (x y w h : Byte) (s t : State) (k : Sink),
    s.params.cursorTable = [] → s.oq = [] → k.awaiting = false →
    x.toNat + w.toNat ≤ 128 → y.toNat + h.toNat ≤ 8 → exec (.flush x y w h) s = .next t →
    ∀ p c, y.toNat ≤ p → p < y.toNat + h.toNat → x.toNat ≤ c → c < x.toNat + w.toNat →
      sinkRam (sinkRun k t.oq) p (c + s.params.colOffset.val) = some (cell s s.cur.toNat c p)

/-! ## Buffer selection and control (42_buffer_select.md, 43_control.md) -/

/-- BUFNEXT and BUFPREV (R131, R134) in every state with CUR below NBUF, as every reachable one is: next wraps to 0,
previous to NBUF - 1, nothing else but REJ changes. -/
def Obligations.BufferNextAndPreviousWrap : Prop :=
  ∀ s : State, s.cur.toNat < s.params.nbuf.toNat →
    (∃ t, exec .bufnext s = .next t ∧ t = { s with cur := t.cur, rej := false } ∧
      t.cur.toNat = (s.cur.toNat + 1) % s.params.nbuf.toNat ∧
      t.cur.toNat = if s.cur.toNat + 1 = s.params.nbuf.toNat then 0 else s.cur.toNat + 1) ∧
    (∃ t, exec .bufprev s = .next t ∧ t = { s with cur := t.cur, rej := false } ∧
      t.cur.toNat = (s.cur.toNat + s.params.nbuf.toNat - 1) % s.params.nbuf.toNat ∧
      t.cur.toNat = if s.cur.toNat = 0 then s.params.nbuf.toNat - 1 else s.cur.toNat - 1)

/-- BUFNEXT and BUFPREV undo each other (R131, R134). -/
def Obligations.BufferNextAndPreviousUndo : Prop :=
  ∀ s : State, s.cur.toNat < s.params.nbuf.toNat →
    execAll [.bufnext, .bufprev] s = .next { s with rej := false } ∧
    execAll [.bufprev, .bufnext] s = .next { s with rej := false }

/-- BUFGOTO (R137): an index at or past NBUF is rejected with no other effect, any other becomes CUR. -/
def Obligations.BufferGotoSelectsOrRejects : Prop :=
  ∀ (d : Byte) (s : State),
    (d.toNat ≥ s.params.nbuf.toNat → exec (.bufgoto d) s = .next { s with rej := true }) ∧
    (d.toNat < s.params.nbuf.toNat → exec (.bufgoto d) s = .next { s with cur := d, rej := false })

/-- NOP and FAULTCLR (43_control.md R140, R143). -/
def Obligations.NopAndFaultclr : Prop :=
  ∀ s : State, exec .nop s = .next { s with rej := false } ∧
    exec .faultclr s = .next { s with fault := false, fcause := 0, fcmd := 0, rej := false }

/-! ## Whole-machine rules -/

/-- The frame of the commands that draw nothing (R109, R129): every byte of every buffer, CMD_LO, the build, the output
stream and the record of the outside are unchanged; OQ but for FLUSH, CMD1, CMD2; CUR but for the buffer commands; the
fault record but for FAULTCLR. -/
def Obligations.NonDrawingCommandsFrame : Prop :=
  ∀ (i : Instr) (s t : State), exec i s = .next t →
    (∀ x y v, i ≠ .setpix x y v) → (∀ x y p c, i ≠ .runv x y p c) → (∀ x y p c, i ≠ .runh x y p c) →
    (∀ x y w h, i ≠ .clear x y w h) →
    (∀ a, byteAt t a = byteAt s a) ∧ t.cmdLo = s.cmdLo ∧ t.params = s.params ∧ t.delivered = s.delivered ∧
      t.responses = s.responses ∧ t.inputs = s.inputs ∧ t.powerOn = s.powerOn ∧
      ((∀ b, i ≠ .cmd1 b) → (∀ b a, i ≠ .cmd2 b a) → (∀ x y w h, i ≠ .flush x y w h) → t.oq = s.oq) ∧
      (i ≠ .bufnext → i ≠ .bufprev → (∀ d, i ≠ .bufgoto d) → t.cur = s.cur) ∧
      (i ≠ .faultclr → t.fault = s.fault ∧ t.fcause = s.fcause ∧ t.fcmd = s.fcmd)

/-- The store is written only by SETPIX, RUNV, RUNH and CLEAR (10_state.md R24), besides a reset. -/
def Obligations.StoreWrittenOnlyByDrawing : Prop :=
  ∀ s t : State, step s = .next t → ¬ SameStore s t →
    (∃ rest, s.inputs = .reset :: rest) ∨
    ∃ w rest i, Committing s w rest ∧ decode w = .ok i ∧ s.oq = [] ∧ s.fault = false ∧
      ((∃ x y v, i = .setpix x y v) ∨ (∃ x y p c, i = .runv x y p c) ∨ (∃ x y p c, i = .runh x y p c) ∨
        ∃ x y w h, i = .clear x y w h)

/-- CUR is written only by BUFNEXT, BUFPREV, BUFGOTO and reset (10_state.md R27). -/
def Obligations.CurWrittenOnlyByBufferCommands : Prop :=
  ∀ s t : State, step s = .next t → t.cur ≠ s.cur →
    (∃ rest, s.inputs = .reset :: rest) ∨
    ∃ w rest i, Committing s w rest ∧ decode w = .ok i ∧ s.oq = [] ∧ s.fault = false ∧
      (i = .bufnext ∨ i = .bufprev ∨ ∃ d, i = .bufgoto d)

/-- REJ is written only by a command the Executor performs or rejects, and by reset (10_state.md R32). -/
def Obligations.RejWrittenOnlyByPerformedCommands : Prop :=
  ∀ s t : State, step s = .next t → t.rej ≠ s.rej →
    (∃ rest, s.inputs = .reset :: rest) ∨
    ∃ w rest i, Committing s w rest ∧ decode w = .ok i ∧ s.oq = [] ∧ (s.fault = true → i = .faultclr) ∧
      (i.wellFormed s.params.nbuf = true ∨ t.rej = true)

/-- Buffers are independent (10_state.md R26): a command changes no cell of any buffer but CUR. -/
def Obligations.OtherBuffersAreUntouched : Prop :=
  ∀ (i : Instr) (s t : State), exec i s = .next t →
    ∀ b c p, b ≠ s.cur.toNat → c < 128 → p < 8 → cell t b c p = cell s b c p

/-- Nor does a command read any buffer but CUR (R26): two states that differ only in other buffers' cells go to states
that agree on buffer CUR and on everything but cells. -/
def Obligations.OtherBuffersAreNotRead : Prop :=
  ∀ (i : Instr) (s s' t t' : State), s' = { s with cells := s'.cells, powerOn := s'.powerOn } →
    (∀ c p, c < 128 → p < 8 → cell s' s.cur.toNat c p = cell s s.cur.toNat c p) →
    exec i s = .next t → exec i s' = .next t' →
      t' = { t with cells := t'.cells, powerOn := t'.powerOn } ∧
      ∀ c p, c < 128 → p < 8 → cell t' s.cur.toNat c p = cell t s.cur.toNat c p

/-! ## The register window (20_memory.md, 10_state.md) -/

/-- STATUS (R33; the other fields R29): a 4-byte read at 0x000 returns the word with these fields and changes nothing; a
write of any width there changes nothing but the fault record (`BAD_ACCESS`, code 7); no step changes NBUF. -/
def Obligations.StatusReadsItsFields : Prop :=
  ∀ s : State,
    (∃ v : Word32, hostRead 0x000 .word s = { s with responses := s.responses ++ [v] } ∧
      v.getLsbD 0 = decide (s.oq ≠ []) ∧ v.getLsbD 1 = s.fault ∧ v.getLsbD 2 = s.rej ∧ v.extractLsb' 3 5 = 0 ∧
      v.extractLsb' 8 8 = s.fcause ∧ v.extractLsb' 16 8 = s.cur ∧ v.extractLsb' 24 8 = s.params.nbuf) ∧
    (∀ n x, ∃ info, hostWrite 0x000 n x s = .next (withRecord s 7 info)) ∧
    ∀ t, step s = .next t → t.params.nbuf = s.params.nbuf

/-- The fault record reads as its two halves, low at 0x004, high at 0x008 (R35, R49), and reading changes nothing. -/
def Obligations.FaultRecordReadsInHalves : Prop :=
  ∀ s : State, ∃ lo hi : Word32,
    hostRead 0x004 .word s = { s with responses := s.responses ++ [lo] } ∧
    hostRead 0x008 .word s = { s with responses := s.responses ++ [hi] } ∧
    s.fcmd.toNat = hi.toNat * 2 ^ 32 + lo.toNat

/-- CMD_LO stores a 4-byte write at any time and has no other effect; CMD_LO and CMD_HI read 0 (R36, R37). -/
def Obligations.CommandRegisters : Prop :=
  ∀ (s : State) (v : Word32),
    hostWrite 0x010 .word v s = .next { s with cmdLo := v } ∧
    hostRead 0x010 .word s = { s with responses := s.responses ++ [0] } ∧
    hostRead 0x014 .word s = { s with responses := s.responses ++ [0] }

/-- A read of the framebuffer window (R50): n bytes at 0x400 + a return the cells FB[CUR][(a+k) % 128][(a+k) / 128],
byte k weighing 2^(8k), and change nothing; the same read in any state with the same cells and CUR returns the same. -/
def Obligations.WindowReadsTheCurrentBuffer : Prop :=
  ∀ (s : State) (n : Size) (a : Nat), a + sizeBytes n ≤ 1024 → a % sizeBytes n = 0 →
    ∃ v : Word32, hostRead (BitVec.ofNat 12 (0x400 + a)) n s = { s with responses := s.responses ++ [v] } ∧
      v.toNat = ((List.range (sizeBytes n)).map fun k =>
        (cell s s.cur.toNat ((a + k) % 128) ((a + k) / 128)).toNat * 2 ^ (8 * k)).sum ∧
      ∀ u : State, SameStore s u → u.cur = s.cur →
        hostRead (BitVec.ofNat 12 (0x400 + a)) n u = { u with responses := u.responses ++ [v] }

/-- A wider read of the framebuffer window sees the bytes that 1-byte reads at the same offsets see (R49). -/
def Obligations.WideReadsAreByteReads : Prop :=
  ∀ (s : State) (n : Size) (off : Offset), 0x400 ≤ off.toNat → off.toNat ≤ 0x7FF → off.toNat % sizeBytes n = 0 →
    ∃ v : Word32, hostRead off n s = { s with responses := s.responses ++ [v] } ∧
      (∀ k < sizeBytes n, hostRead (BitVec.ofNat 12 (off.toNat + k)) .byte s =
        { s with responses := s.responses ++ [(v.extractLsb' (8 * k) 8).setWidth 32] }) ∧
      v.toNat < 2 ^ (8 * sizeBytes n)

/-- A bad access (R45, R51, R147): a read that is not served returns 0, a write that is not served changes nothing, and
either records `BAD_ACCESS` (code 7) with its descriptor, unless a fault is recorded already; nothing else changes. -/
def Obligations.BadAccessesAreRecorded : Prop :=
  ∀ (s : State) (off : Offset) (n : Size),
    (¬ ReadServed off n → ∃ info : Word64, info.toNat = descriptorNat false n off ∧
      hostRead off n s = { withRecord s 7 info with responses := s.responses ++ [0] }) ∧
    (∀ v, ¬ WriteServed off n → ∃ info : Word64, info.toNat = descriptorNat true n off ∧
      hostWrite off n v s = .next (withRecord s 7 info))

/-! ## Reset and the invariant (10_state.md R41, 70_reset_and_hazards.md R164) -/

/-- After reset (R41), for every build, the default one with NBUF 1 (R11): every element at its value, each cell at its
unspecified power-on byte (whatever that byte is), STATUS reading NBUF and zeros; and until the next reset a cell that is
not written holds that same byte. -/
def Obligations.ResetValues : Prop :=
  (∃ p n, State.reset = State.resetWith p n ∧ p.nbuf = 1) ∧
  ∀ (p : Params) (n : Nat), let s := State.resetWith p n
    s.params = p ∧ s.cur = 0 ∧ s.oq = [] ∧ busy s = false ∧ s.fault = false ∧ s.rej = false ∧ s.fcause = 0 ∧
    s.fcmd = 0 ∧ s.cmdLo = 0 ∧ (statusWord s).toNat = p.nbuf.toNat * 2 ^ 24 ∧
    (∀ b c q, cell s b c q = Config.powerOnByte n (cellKey b c q)) ∧
    ∀ u v : State, step u = .next v → (∀ rest, u.inputs ≠ .reset :: rest) → u.powerOn = n →
      v.powerOn = n ∧ ∀ a, memRead v.cells a = none → byteAt v a = Config.powerOnByte n a

/-- The reset input (R164, R127): every element at its value of R41, the queue discarded, the framebuffer's contents
unspecified anew; the build, what was delivered, what reads returned and what is still to come stay (log 9). -/
def Obligations.ResetInputResetsTheBlock : Prop :=
  ∀ (s : State) (rest : List Input), s.inputs = .reset :: rest →
    ∃ t, step s = .next t ∧ t.params = s.params ∧ t.cur = 0 ∧ t.oq = [] ∧ t.fault = false ∧ t.rej = false ∧
      t.fcause = 0 ∧ t.fcmd = 0 ∧ t.cmdLo = 0 ∧ t.delivered = s.delivered ∧ t.responses = s.responses ∧
      t.inputs = rest ∧ ∀ a, byteAt t a = Config.powerOnByte (s.powerOn + 1) a

/-- The invariant holds after reset, in every legal build. -/
def Obligations.InvariantAtReset : Prop :=
  State.reset.Inv ∧ ∀ (p : Params) (n : Nat), LegalBuild p → (State.resetWith p n).Inv

/-- Every step keeps the invariant, from every state that has it: CUR below NBUF (R27), the store canonical and inside the
NBUF buffers (R24), the fault record in agreement with FAULT (R34, R146), no empty burst (R20). -/
def Obligations.InvariantKeptByEveryStep : Prop := ∀ s t : State, s.Inv → step s = .next t → t.Inv
end

