-- ==== Sys2Proof/Laws/Encoding.lean ====
section
/-! SUPPORT. The encoder's word as a number, its fields, and what a word that selects a row looks like. -/

namespace Sys2Proof

theorem or_eq_add_of_lt {a b : Nat} (i k : Nat) (ha : a = 2 ^ i * k) (hb : b < 2 ^ i) : a ||| b = a + b := by
  subst ha; rw [Nat.two_pow_add_eq_or_of_lt hb]

theorem shifted_toNat (v : Byte) {k : Nat} (hk : k ≤ 56) : (v.setWidth 64 <<< k).toNat = v.toNat * 2 ^ k := by
  have hv := v.isLt
  rw [BitVec.toNat_shiftLeft, BitVec.toNat_setWidth, Nat.mod_eq_of_lt (a := v.toNat) (by omega), Nat.shiftLeft_eq,
    Nat.mod_eq_of_lt]
  calc v.toNat * 2 ^ k < 2 ^ 8 * 2 ^ k := Nat.mul_lt_mul_of_pos_right hv (Nat.two_pow_pos k)
    _ = 2 ^ (8 + k) := (Nat.pow_add 2 8 k).symm
    _ ≤ 2 ^ 64 := Nat.pow_le_pow_right (by omega) (by omega)

/-- The word as a number: the fields weigh as R75 places them. -/
theorem enc_toNat (op d c x y w h : Byte) : (enc op d c x y w h).toNat =
    op.toNat * 2 ^ 56 + d.toNat * 2 ^ 40 + c.toNat * 2 ^ 32 + x.toNat * 2 ^ 24 + y.toNat * 2 ^ 16 + w.toNat * 2 ^ 8 +
      h.toNat := by
  have h1 := op.isLt; have h2 := d.isLt; have h3 := c.isLt; have h4 := x.isLt; have h5 := y.isLt
  have h6 := w.isLt; have h7 := h.isLt
  have hz : ((0 : Word64) <<< 48).toNat = 0 := rfl
  have hh : (h.setWidth 64).toNat = h.toNat := by rw [BitVec.toNat_setWidth, Nat.mod_eq_of_lt (by omega)]
  simp only [enc, BitVec.toNat_or, shifted_toNat, hz, hh, Nat.or_zero, Nat.reduceLeDiff]
  rw [or_eq_add_of_lt (a := op.toNat * 2 ^ 56) 48 (op.toNat * 2 ^ 8) (by omega) (by omega),
    or_eq_add_of_lt (a := op.toNat * 2 ^ 56 + d.toNat * 2 ^ 40) 40 (op.toNat * 2 ^ 16 + d.toNat) (by omega) (by omega),
    or_eq_add_of_lt (a := op.toNat * 2 ^ 56 + d.toNat * 2 ^ 40 + c.toNat * 2 ^ 32) 32
      (op.toNat * 2 ^ 24 + d.toNat * 2 ^ 8 + c.toNat) (by omega) (by omega),
    or_eq_add_of_lt (a := op.toNat * 2 ^ 56 + d.toNat * 2 ^ 40 + c.toNat * 2 ^ 32 + x.toNat * 2 ^ 24) 24
      (op.toNat * 2 ^ 32 + d.toNat * 2 ^ 16 + c.toNat * 2 ^ 8 + x.toNat) (by omega) (by omega),
    or_eq_add_of_lt
      (a := op.toNat * 2 ^ 56 + d.toNat * 2 ^ 40 + c.toNat * 2 ^ 32 + x.toNat * 2 ^ 24 + y.toNat * 2 ^ 16) 16
      (op.toNat * 2 ^ 40 + d.toNat * 2 ^ 24 + c.toNat * 2 ^ 16 + x.toNat * 2 ^ 8 + y.toNat) (by omega) (by omega),
    or_eq_add_of_lt
      (a := op.toNat * 2 ^ 56 + d.toNat * 2 ^ 40 + c.toNat * 2 ^ 32 + x.toNat * 2 ^ 24 + y.toNat * 2 ^ 16 +
        w.toNat * 2 ^ 8) 8
      (op.toNat * 2 ^ 48 + d.toNat * 2 ^ 32 + c.toNat * 2 ^ 24 + x.toNat * 2 ^ 16 + y.toNat * 2 ^ 8 + w.toNat)
      (by omega) (by omega)]

/-- A byte of a word as a number. -/
theorem field_toNat (w : Word64) (k : Nat) : (w.extractLsb' k 8).toNat = w.toNat / 2 ^ k % 256 := by
  rw [BitVec.extractLsb'_toNat, Nat.shiftRight_eq_div_pow]

/-! ## Every field of an encoded word reads back -/

section
variable (op d c x y w h : Byte)

theorem opField_enc : opField (enc op d c x y w h) = op := by
  apply BitVec.eq_of_toNat_eq; rw [opField, field_toNat, enc_toNat]
  have := op.isLt; have := d.isLt; have := c.isLt; have := x.isLt; have := y.isLt; have := w.isLt; have := h.isLt
  omega
theorem dField_enc : dField (enc op d c x y w h) = d := by
  apply BitVec.eq_of_toNat_eq; rw [dField, field_toNat, enc_toNat]
  have := op.isLt; have := d.isLt; have := c.isLt; have := x.isLt; have := y.isLt; have := w.isLt; have := h.isLt
  omega
theorem cField_enc : cField (enc op d c x y w h) = c := by
  apply BitVec.eq_of_toNat_eq; rw [cField, field_toNat, enc_toNat]
  have := op.isLt; have := d.isLt; have := c.isLt; have := x.isLt; have := y.isLt; have := w.isLt; have := h.isLt
  omega
theorem xField_enc : xField (enc op d c x y w h) = x := by
  apply BitVec.eq_of_toNat_eq; rw [xField, field_toNat, enc_toNat]
  have := op.isLt; have := d.isLt; have := c.isLt; have := x.isLt; have := y.isLt; have := w.isLt; have := h.isLt
  omega
theorem yField_enc : yField (enc op d c x y w h) = y := by
  apply BitVec.eq_of_toNat_eq; rw [yField, field_toNat, enc_toNat]
  have := op.isLt; have := d.isLt; have := c.isLt; have := x.isLt; have := y.isLt; have := w.isLt; have := h.isLt
  omega
theorem wField_enc : wField (enc op d c x y w h) = w := by
  apply BitVec.eq_of_toNat_eq; rw [wField, field_toNat, enc_toNat]
  have := op.isLt; have := d.isLt; have := c.isLt; have := x.isLt; have := y.isLt; have := w.isLt; have := h.isLt
  omega
theorem hField_enc : hField (enc op d c x y w h) = h := by
  apply BitVec.eq_of_toNat_eq; rw [hField, field_toNat, enc_toNat]
  have := op.isLt; have := d.isLt; have := c.isLt; have := x.isLt; have := y.isLt; have := w.isLt; have := h.isLt
  omega
/-- The RSV byte of an encoded word is 0 (R70). -/
theorem rsv_enc : (enc op d c x y w h).extractLsb' 48 8 = 0 := by
  apply BitVec.eq_of_toNat_eq; rw [field_toNat, enc_toNat]
  have := op.isLt; have := d.isLt; have := c.isLt; have := x.isLt; have := y.isLt; have := w.isLt; have := h.isLt
  rw [show (0 : Byte).toNat = 0 from rfl]
  omega
end

/-- A word is the one its bytes encode, when RSV is 0. -/
theorem enc_fields {v : Word64} (h : v.extractLsb' 48 8 = 0) :
    enc (opField v) (dField v) (cField v) (xField v) (yField v) (wField v) (hField v) = v := by
  apply BitVec.eq_of_toNat_eq
  have h' := congrArg BitVec.toNat h
  rw [field_toNat] at h'
  simp only [enc_toNat, opField, dField, cField, xField, yField, wField, hField, field_toNat]
  rw [show (0 : Byte).toNat = 0 from rfl] at h'
  have := v.isLt
  omega

/-! ## The reserved bits -/

/-- A byte of `w &&& z`. -/
theorem field_and (v z : Word64) (k : Nat) : (v &&& z).extractLsb' k 8 = v.extractLsb' k 8 &&& z.extractLsb' k 8 := by
  apply BitVec.eq_of_getLsbD_eq
  intro i hi
  simp [hi]

/-- A word is 0 when its eight bytes are. -/
theorem eq_zero_of_fields {v : Word64} (h0 : hField v = 0) (h1 : wField v = 0) (h2 : yField v = 0) (h3 : xField v = 0)
    (h4 : cField v = 0) (h5 : dField v = 0) (h6 : v.extractLsb' 48 8 = 0) (h7 : opField v = 0) : v = 0 := by
  rw [← enc_fields h6, h0, h1, h2, h3, h4, h5, h7]; rfl

/-- `w & Z = 0`, byte by byte. -/
theorem and_eq_zero_iff (v z : Word64) :
    v &&& z = 0 ↔
      opField v &&& opField z = 0 ∧ v.extractLsb' 48 8 &&& z.extractLsb' 48 8 = 0 ∧ dField v &&& dField z = 0 ∧
      cField v &&& cField z = 0 ∧ xField v &&& xField z = 0 ∧ yField v &&& yField z = 0 ∧
      wField v &&& wField z = 0 ∧ hField v &&& hField z = 0 := by
  simp only [opField, dField, cField, xField, yField, wField, hField, ← field_and]
  constructor
  · intro h; rw [h]; decide
  · rintro ⟨h7, h6, h5, h4, h3, h2, h1, h0⟩
    exact eq_zero_of_fields h0 h1 h2 h3 h4 h5 h6 h7

/-! ## One row of the opcode map -/

theorem decodeRow_ok {z v : Word64} {j i : Instr} (h : decodeRow z v j = .ok i) : v &&& z = 0 ∧ j = i := by
  unfold decodeRow at h
  by_cases hz : v &&& z = 0
  · rw [if_pos hz] at h; injection h with h; exact ⟨hz, h⟩
  · rw [if_neg hz] at h; cases h

theorem decodeRow_of_zero {z v : Word64} (j : Instr) (h : v &&& z = 0) : decodeRow z v j = .ok j := if_pos h

theorem decodeRow_of_reserved {z v : Word64} (j : Instr) (h : v &&& z ≠ 0) :
    decodeRow z v j = .error .reservedField := if_neg h

end Sys2Proof
end

