-- ==== Sys2Proof/Laws/State.lean ====
section
/-! SUPPORT. One lemma per field per update of State, so that no later proof unfolds a record update. -/

namespace Sys2Proof.Machine

/-! ## `done` -/

@[simp] theorem done_params (s : State) : (done s).params = s.params := rfl
@[simp] theorem done_cells (s : State) : (done s).cells = s.cells := rfl
@[simp] theorem done_powerOn (s : State) : (done s).powerOn = s.powerOn := rfl
@[simp] theorem done_cur (s : State) : (done s).cur = s.cur := rfl
@[simp] theorem done_fault (s : State) : (done s).fault = s.fault := rfl
@[simp] theorem done_rej (s : State) : (done s).rej = false := rfl
@[simp] theorem done_fcause (s : State) : (done s).fcause = s.fcause := rfl
@[simp] theorem done_fcmd (s : State) : (done s).fcmd = s.fcmd := rfl
@[simp] theorem done_cmdLo (s : State) : (done s).cmdLo = s.cmdLo := rfl
@[simp] theorem done_oq (s : State) : (done s).oq = s.oq := rfl
@[simp] theorem done_delivered (s : State) : (done s).delivered = s.delivered := rfl
@[simp] theorem done_responses (s : State) : (done s).responses = s.responses := rfl
@[simp] theorem done_inputs (s : State) : (done s).inputs = s.inputs := rfl

/-! ## `reject` -/

@[simp] theorem reject_params (s : State) : (reject s).params = s.params := rfl
@[simp] theorem reject_cells (s : State) : (reject s).cells = s.cells := rfl
@[simp] theorem reject_powerOn (s : State) : (reject s).powerOn = s.powerOn := rfl
@[simp] theorem reject_cur (s : State) : (reject s).cur = s.cur := rfl
@[simp] theorem reject_fault (s : State) : (reject s).fault = s.fault := rfl
@[simp] theorem reject_rej (s : State) : (reject s).rej = true := rfl
@[simp] theorem reject_fcause (s : State) : (reject s).fcause = s.fcause := rfl
@[simp] theorem reject_fcmd (s : State) : (reject s).fcmd = s.fcmd := rfl
@[simp] theorem reject_cmdLo (s : State) : (reject s).cmdLo = s.cmdLo := rfl
@[simp] theorem reject_oq (s : State) : (reject s).oq = s.oq := rfl
@[simp] theorem reject_delivered (s : State) : (reject s).delivered = s.delivered := rfl
@[simp] theorem reject_responses (s : State) : (reject s).responses = s.responses := rfl
@[simp] theorem reject_inputs (s : State) : (reject s).inputs = s.inputs := rfl

/-! ## `clearFault` -/

@[simp] theorem clearFault_params (s : State) : (clearFault s).params = s.params := rfl
@[simp] theorem clearFault_cells (s : State) : (clearFault s).cells = s.cells := rfl
@[simp] theorem clearFault_powerOn (s : State) : (clearFault s).powerOn = s.powerOn := rfl
@[simp] theorem clearFault_cur (s : State) : (clearFault s).cur = s.cur := rfl
@[simp] theorem clearFault_fault (s : State) : (clearFault s).fault = false := rfl
@[simp] theorem clearFault_rej (s : State) : (clearFault s).rej = s.rej := rfl
@[simp] theorem clearFault_fcause (s : State) : (clearFault s).fcause = 0 := rfl
@[simp] theorem clearFault_fcmd (s : State) : (clearFault s).fcmd = 0 := rfl
@[simp] theorem clearFault_cmdLo (s : State) : (clearFault s).cmdLo = s.cmdLo := rfl
@[simp] theorem clearFault_oq (s : State) : (clearFault s).oq = s.oq := rfl
@[simp] theorem clearFault_delivered (s : State) : (clearFault s).delivered = s.delivered := rfl
@[simp] theorem clearFault_responses (s : State) : (clearFault s).responses = s.responses := rfl
@[simp] theorem clearFault_inputs (s : State) : (clearFault s).inputs = s.inputs := rfl

/-! ## `emit` -/

@[simp] theorem emit_params (t : Transaction) (s : State) : (emit t s).params = s.params := rfl
@[simp] theorem emit_cells (t : Transaction) (s : State) : (emit t s).cells = s.cells := rfl
@[simp] theorem emit_powerOn (t : Transaction) (s : State) : (emit t s).powerOn = s.powerOn := rfl
@[simp] theorem emit_cur (t : Transaction) (s : State) : (emit t s).cur = s.cur := rfl
@[simp] theorem emit_fault (t : Transaction) (s : State) : (emit t s).fault = s.fault := rfl
@[simp] theorem emit_rej (t : Transaction) (s : State) : (emit t s).rej = s.rej := rfl
@[simp] theorem emit_fcause (t : Transaction) (s : State) : (emit t s).fcause = s.fcause := rfl
@[simp] theorem emit_fcmd (t : Transaction) (s : State) : (emit t s).fcmd = s.fcmd := rfl
@[simp] theorem emit_cmdLo (t : Transaction) (s : State) : (emit t s).cmdLo = s.cmdLo := rfl
@[simp] theorem emit_oq (t : Transaction) (s : State) : (emit t s).oq = s.oq ++ [t] := rfl
@[simp] theorem emit_delivered (t : Transaction) (s : State) : (emit t s).delivered = s.delivered := rfl
@[simp] theorem emit_responses (t : Transaction) (s : State) : (emit t s).responses = s.responses := rfl
@[simp] theorem emit_inputs (t : Transaction) (s : State) : (emit t s).inputs = s.inputs := rfl

/-! ## `setCell` -/

@[simp] theorem setCell_params (s : State) (c p : Nat) (v : Byte) : (setCell s c p v).params = s.params := rfl
@[simp] theorem setCell_cells (s : State) (c p : Nat) (v : Byte) : (setCell s c p v).cells = memWrite s.cells (curKey s c p) v := rfl
@[simp] theorem setCell_powerOn (s : State) (c p : Nat) (v : Byte) : (setCell s c p v).powerOn = s.powerOn := rfl
@[simp] theorem setCell_cur (s : State) (c p : Nat) (v : Byte) : (setCell s c p v).cur = s.cur := rfl
@[simp] theorem setCell_fault (s : State) (c p : Nat) (v : Byte) : (setCell s c p v).fault = s.fault := rfl
@[simp] theorem setCell_rej (s : State) (c p : Nat) (v : Byte) : (setCell s c p v).rej = s.rej := rfl
@[simp] theorem setCell_fcause (s : State) (c p : Nat) (v : Byte) : (setCell s c p v).fcause = s.fcause := rfl
@[simp] theorem setCell_fcmd (s : State) (c p : Nat) (v : Byte) : (setCell s c p v).fcmd = s.fcmd := rfl
@[simp] theorem setCell_cmdLo (s : State) (c p : Nat) (v : Byte) : (setCell s c p v).cmdLo = s.cmdLo := rfl
@[simp] theorem setCell_oq (s : State) (c p : Nat) (v : Byte) : (setCell s c p v).oq = s.oq := rfl
@[simp] theorem setCell_delivered (s : State) (c p : Nat) (v : Byte) : (setCell s c p v).delivered = s.delivered := rfl
@[simp] theorem setCell_responses (s : State) (c p : Nat) (v : Byte) : (setCell s c p v).responses = s.responses := rfl
@[simp] theorem setCell_inputs (s : State) (c p : Nat) (v : Byte) : (setCell s c p v).inputs = s.inputs := rfl

/-! ## `setCur` -/

@[simp] theorem setCur_params (n : Nat) (s : State) : (setCur n s).params = s.params := rfl
@[simp] theorem setCur_cells (n : Nat) (s : State) : (setCur n s).cells = s.cells := rfl
@[simp] theorem setCur_powerOn (n : Nat) (s : State) : (setCur n s).powerOn = s.powerOn := rfl
@[simp] theorem setCur_cur (n : Nat) (s : State) : (setCur n s).cur = BitVec.ofNat 8 n := rfl
@[simp] theorem setCur_fault (n : Nat) (s : State) : (setCur n s).fault = s.fault := rfl
@[simp] theorem setCur_rej (n : Nat) (s : State) : (setCur n s).rej = s.rej := rfl
@[simp] theorem setCur_fcause (n : Nat) (s : State) : (setCur n s).fcause = s.fcause := rfl
@[simp] theorem setCur_fcmd (n : Nat) (s : State) : (setCur n s).fcmd = s.fcmd := rfl
@[simp] theorem setCur_cmdLo (n : Nat) (s : State) : (setCur n s).cmdLo = s.cmdLo := rfl
@[simp] theorem setCur_oq (n : Nat) (s : State) : (setCur n s).oq = s.oq := rfl
@[simp] theorem setCur_delivered (n : Nat) (s : State) : (setCur n s).delivered = s.delivered := rfl
@[simp] theorem setCur_responses (n : Nat) (s : State) : (setCur n s).responses = s.responses := rfl
@[simp] theorem setCur_inputs (n : Nat) (s : State) : (setCur n s).inputs = s.inputs := rfl

/-! ## `respond` -/

@[simp] theorem respond_params (v : Word32) (s : State) : (respond v s).params = s.params := rfl
@[simp] theorem respond_cells (v : Word32) (s : State) : (respond v s).cells = s.cells := rfl
@[simp] theorem respond_powerOn (v : Word32) (s : State) : (respond v s).powerOn = s.powerOn := rfl
@[simp] theorem respond_cur (v : Word32) (s : State) : (respond v s).cur = s.cur := rfl
@[simp] theorem respond_fault (v : Word32) (s : State) : (respond v s).fault = s.fault := rfl
@[simp] theorem respond_rej (v : Word32) (s : State) : (respond v s).rej = s.rej := rfl
@[simp] theorem respond_fcause (v : Word32) (s : State) : (respond v s).fcause = s.fcause := rfl
@[simp] theorem respond_fcmd (v : Word32) (s : State) : (respond v s).fcmd = s.fcmd := rfl
@[simp] theorem respond_cmdLo (v : Word32) (s : State) : (respond v s).cmdLo = s.cmdLo := rfl
@[simp] theorem respond_oq (v : Word32) (s : State) : (respond v s).oq = s.oq := rfl
@[simp] theorem respond_delivered (v : Word32) (s : State) : (respond v s).delivered = s.delivered := rfl
@[simp] theorem respond_responses (v : Word32) (s : State) : (respond v s).responses = s.responses ++ [v] := rfl
@[simp] theorem respond_inputs (v : Word32) (s : State) : (respond v s).inputs = s.inputs := rfl

/-! ## `stageLow` -/

@[simp] theorem stageLow_params (v : Word32) (s : State) : (stageLow v s).params = s.params := rfl
@[simp] theorem stageLow_cells (v : Word32) (s : State) : (stageLow v s).cells = s.cells := rfl
@[simp] theorem stageLow_powerOn (v : Word32) (s : State) : (stageLow v s).powerOn = s.powerOn := rfl
@[simp] theorem stageLow_cur (v : Word32) (s : State) : (stageLow v s).cur = s.cur := rfl
@[simp] theorem stageLow_fault (v : Word32) (s : State) : (stageLow v s).fault = s.fault := rfl
@[simp] theorem stageLow_rej (v : Word32) (s : State) : (stageLow v s).rej = s.rej := rfl
@[simp] theorem stageLow_fcause (v : Word32) (s : State) : (stageLow v s).fcause = s.fcause := rfl
@[simp] theorem stageLow_fcmd (v : Word32) (s : State) : (stageLow v s).fcmd = s.fcmd := rfl
@[simp] theorem stageLow_cmdLo (v : Word32) (s : State) : (stageLow v s).cmdLo = v := rfl
@[simp] theorem stageLow_oq (v : Word32) (s : State) : (stageLow v s).oq = s.oq := rfl
@[simp] theorem stageLow_delivered (v : Word32) (s : State) : (stageLow v s).delivered = s.delivered := rfl
@[simp] theorem stageLow_responses (v : Word32) (s : State) : (stageLow v s).responses = s.responses := rfl
@[simp] theorem stageLow_inputs (v : Word32) (s : State) : (stageLow v s).inputs = s.inputs := rfl

/-! ## `setInputs` -/

@[simp] theorem setInputs_params (l : List Input) (s : State) : (setInputs l s).params = s.params := rfl
@[simp] theorem setInputs_cells (l : List Input) (s : State) : (setInputs l s).cells = s.cells := rfl
@[simp] theorem setInputs_powerOn (l : List Input) (s : State) : (setInputs l s).powerOn = s.powerOn := rfl
@[simp] theorem setInputs_cur (l : List Input) (s : State) : (setInputs l s).cur = s.cur := rfl
@[simp] theorem setInputs_fault (l : List Input) (s : State) : (setInputs l s).fault = s.fault := rfl
@[simp] theorem setInputs_rej (l : List Input) (s : State) : (setInputs l s).rej = s.rej := rfl
@[simp] theorem setInputs_fcause (l : List Input) (s : State) : (setInputs l s).fcause = s.fcause := rfl
@[simp] theorem setInputs_fcmd (l : List Input) (s : State) : (setInputs l s).fcmd = s.fcmd := rfl
@[simp] theorem setInputs_cmdLo (l : List Input) (s : State) : (setInputs l s).cmdLo = s.cmdLo := rfl
@[simp] theorem setInputs_oq (l : List Input) (s : State) : (setInputs l s).oq = s.oq := rfl
@[simp] theorem setInputs_delivered (l : List Input) (s : State) : (setInputs l s).delivered = s.delivered := rfl
@[simp] theorem setInputs_responses (l : List Input) (s : State) : (setInputs l s).responses = s.responses := rfl
@[simp] theorem setInputs_inputs (l : List Input) (s : State) : (setInputs l s).inputs = l := rfl

/-! ## `resetInput` -/

@[simp] theorem resetInput_params (s : State) : (resetInput s).params = s.params := rfl
@[simp] theorem resetInput_cells (s : State) : (resetInput s).cells = [] := rfl
@[simp] theorem resetInput_powerOn (s : State) : (resetInput s).powerOn = s.powerOn + 1 := rfl
@[simp] theorem resetInput_cur (s : State) : (resetInput s).cur = 0 := rfl
@[simp] theorem resetInput_fault (s : State) : (resetInput s).fault = false := rfl
@[simp] theorem resetInput_rej (s : State) : (resetInput s).rej = false := rfl
@[simp] theorem resetInput_fcause (s : State) : (resetInput s).fcause = 0 := rfl
@[simp] theorem resetInput_fcmd (s : State) : (resetInput s).fcmd = 0 := rfl
@[simp] theorem resetInput_cmdLo (s : State) : (resetInput s).cmdLo = 0 := rfl
@[simp] theorem resetInput_oq (s : State) : (resetInput s).oq = [] := rfl
@[simp] theorem resetInput_delivered (s : State) : (resetInput s).delivered = s.delivered := rfl
@[simp] theorem resetInput_responses (s : State) : (resetInput s).responses = s.responses := rfl
@[simp] theorem resetInput_inputs (s : State) : (resetInput s).inputs = s.inputs := rfl

/-! ## `State.resetWith` -/

@[simp] theorem resetWith_params (p : Params) (n : Nat) : (State.resetWith p n).params = p := rfl
@[simp] theorem resetWith_cells (p : Params) (n : Nat) : (State.resetWith p n).cells = [] := rfl
@[simp] theorem resetWith_powerOn (p : Params) (n : Nat) : (State.resetWith p n).powerOn = n := rfl
@[simp] theorem resetWith_cur (p : Params) (n : Nat) : (State.resetWith p n).cur = 0 := rfl
@[simp] theorem resetWith_fault (p : Params) (n : Nat) : (State.resetWith p n).fault = false := rfl
@[simp] theorem resetWith_rej (p : Params) (n : Nat) : (State.resetWith p n).rej = false := rfl
@[simp] theorem resetWith_fcause (p : Params) (n : Nat) : (State.resetWith p n).fcause = 0 := rfl
@[simp] theorem resetWith_fcmd (p : Params) (n : Nat) : (State.resetWith p n).fcmd = 0 := rfl
@[simp] theorem resetWith_cmdLo (p : Params) (n : Nat) : (State.resetWith p n).cmdLo = 0 := rfl
@[simp] theorem resetWith_oq (p : Params) (n : Nat) : (State.resetWith p n).oq = [] := rfl
@[simp] theorem resetWith_delivered (p : Params) (n : Nat) : (State.resetWith p n).delivered = [] := rfl
@[simp] theorem resetWith_responses (p : Params) (n : Nat) : (State.resetWith p n).responses = [] := rfl
@[simp] theorem resetWith_inputs (p : Params) (n : Nat) : (State.resetWith p n).inputs = [] := rfl

/-! ## `writePixel`: only the cells -/

@[simp] theorem writePixel_params (x y : Nat) (v : Bool) (s : State) : (writePixel x y v s).params = s.params := rfl
@[simp] theorem writePixel_powerOn (x y : Nat) (v : Bool) (s : State) : (writePixel x y v s).powerOn = s.powerOn := rfl
@[simp] theorem writePixel_cur (x y : Nat) (v : Bool) (s : State) : (writePixel x y v s).cur = s.cur := rfl
@[simp] theorem writePixel_fault (x y : Nat) (v : Bool) (s : State) : (writePixel x y v s).fault = s.fault := rfl
@[simp] theorem writePixel_rej (x y : Nat) (v : Bool) (s : State) : (writePixel x y v s).rej = s.rej := rfl
@[simp] theorem writePixel_fcause (x y : Nat) (v : Bool) (s : State) : (writePixel x y v s).fcause = s.fcause := rfl
@[simp] theorem writePixel_fcmd (x y : Nat) (v : Bool) (s : State) : (writePixel x y v s).fcmd = s.fcmd := rfl
@[simp] theorem writePixel_cmdLo (x y : Nat) (v : Bool) (s : State) : (writePixel x y v s).cmdLo = s.cmdLo := rfl
@[simp] theorem writePixel_oq (x y : Nat) (v : Bool) (s : State) : (writePixel x y v s).oq = s.oq := rfl
@[simp] theorem writePixel_delivered (x y : Nat) (v : Bool) (s : State) : (writePixel x y v s).delivered = s.delivered := rfl
@[simp] theorem writePixel_responses (x y : Nat) (v : Bool) (s : State) : (writePixel x y v s).responses = s.responses := rfl
@[simp] theorem writePixel_inputs (x y : Nat) (v : Bool) (s : State) : (writePixel x y v s).inputs = s.inputs := rfl

/-! ## `vRun`: only the cells -/

@[simp] theorem vRun_params (x y : Nat) (pat : Byte) (n : Nat) (s : State) : (vRun x y pat n s).params = s.params := by
  simp only [vRun]; split <;> rfl
@[simp] theorem vRun_powerOn (x y : Nat) (pat : Byte) (n : Nat) (s : State) : (vRun x y pat n s).powerOn = s.powerOn := by
  simp only [vRun]; split <;> rfl
@[simp] theorem vRun_cur (x y : Nat) (pat : Byte) (n : Nat) (s : State) : (vRun x y pat n s).cur = s.cur := by
  simp only [vRun]; split <;> rfl
@[simp] theorem vRun_fault (x y : Nat) (pat : Byte) (n : Nat) (s : State) : (vRun x y pat n s).fault = s.fault := by
  simp only [vRun]; split <;> rfl
@[simp] theorem vRun_rej (x y : Nat) (pat : Byte) (n : Nat) (s : State) : (vRun x y pat n s).rej = s.rej := by
  simp only [vRun]; split <;> rfl
@[simp] theorem vRun_fcause (x y : Nat) (pat : Byte) (n : Nat) (s : State) : (vRun x y pat n s).fcause = s.fcause := by
  simp only [vRun]; split <;> rfl
@[simp] theorem vRun_fcmd (x y : Nat) (pat : Byte) (n : Nat) (s : State) : (vRun x y pat n s).fcmd = s.fcmd := by
  simp only [vRun]; split <;> rfl
@[simp] theorem vRun_cmdLo (x y : Nat) (pat : Byte) (n : Nat) (s : State) : (vRun x y pat n s).cmdLo = s.cmdLo := by
  simp only [vRun]; split <;> rfl
@[simp] theorem vRun_oq (x y : Nat) (pat : Byte) (n : Nat) (s : State) : (vRun x y pat n s).oq = s.oq := by
  simp only [vRun]; split <;> rfl
@[simp] theorem vRun_delivered (x y : Nat) (pat : Byte) (n : Nat) (s : State) : (vRun x y pat n s).delivered = s.delivered := by
  simp only [vRun]; split <;> rfl
@[simp] theorem vRun_responses (x y : Nat) (pat : Byte) (n : Nat) (s : State) : (vRun x y pat n s).responses = s.responses := by
  simp only [vRun]; split <;> rfl
@[simp] theorem vRun_inputs (x y : Nat) (pat : Byte) (n : Nat) (s : State) : (vRun x y pat n s).inputs = s.inputs := by
  simp only [vRun]; split <;> rfl

/-! ## `raiseFault`: only the fault record (60_exceptions.md R151) -/

@[simp] theorem raiseFault_params (c : Cause) (w : Word64) (s : State) : (raiseFault c w s).params = s.params := by
  simp only [raiseFault]; split <;> rfl
@[simp] theorem raiseFault_cells (c : Cause) (w : Word64) (s : State) : (raiseFault c w s).cells = s.cells := by
  simp only [raiseFault]; split <;> rfl
@[simp] theorem raiseFault_powerOn (c : Cause) (w : Word64) (s : State) : (raiseFault c w s).powerOn = s.powerOn := by
  simp only [raiseFault]; split <;> rfl
@[simp] theorem raiseFault_cur (c : Cause) (w : Word64) (s : State) : (raiseFault c w s).cur = s.cur := by
  simp only [raiseFault]; split <;> rfl
@[simp] theorem raiseFault_rej (c : Cause) (w : Word64) (s : State) : (raiseFault c w s).rej = s.rej := by
  simp only [raiseFault]; split <;> rfl
@[simp] theorem raiseFault_cmdLo (c : Cause) (w : Word64) (s : State) : (raiseFault c w s).cmdLo = s.cmdLo := by
  simp only [raiseFault]; split <;> rfl
@[simp] theorem raiseFault_oq (c : Cause) (w : Word64) (s : State) : (raiseFault c w s).oq = s.oq := by
  simp only [raiseFault]; split <;> rfl
@[simp] theorem raiseFault_delivered (c : Cause) (w : Word64) (s : State) : (raiseFault c w s).delivered = s.delivered := by
  simp only [raiseFault]; split <;> rfl
@[simp] theorem raiseFault_responses (c : Cause) (w : Word64) (s : State) : (raiseFault c w s).responses = s.responses := by
  simp only [raiseFault]; split <;> rfl
@[simp] theorem raiseFault_inputs (c : Cause) (w : Word64) (s : State) : (raiseFault c w s).inputs = s.inputs := by
  simp only [raiseFault]; split <;> rfl

@[simp] theorem raiseFault_fault (c : Cause) (w : Word64) (s : State) : (raiseFault c w s).fault = true := by
  simp only [raiseFault]; split
  · assumption
  · rfl

theorem raiseFault_of_fault {c : Cause} {w : Word64} {s : State} (h : s.fault = true) : raiseFault c w s = s := by
  simp [raiseFault, h]

theorem raiseFault_of_no_fault {c : Cause} {w : Word64} {s : State} (h : s.fault = false) :
    raiseFault c w s = { s with fault := true, fcause := causeCode c, fcmd := w } := by
  simp [raiseFault, h]

/-! ## `transportStep`: only the queue and the output stream (41_transport_dma.md R123) -/

@[simp] theorem transportStep_params (s : State) : (transportStep s).params = s.params := by
  simp only [transportStep]; split <;> rfl
@[simp] theorem transportStep_cells (s : State) : (transportStep s).cells = s.cells := by
  simp only [transportStep]; split <;> rfl
@[simp] theorem transportStep_powerOn (s : State) : (transportStep s).powerOn = s.powerOn := by
  simp only [transportStep]; split <;> rfl
@[simp] theorem transportStep_cur (s : State) : (transportStep s).cur = s.cur := by
  simp only [transportStep]; split <;> rfl
@[simp] theorem transportStep_fault (s : State) : (transportStep s).fault = s.fault := by
  simp only [transportStep]; split <;> rfl
@[simp] theorem transportStep_rej (s : State) : (transportStep s).rej = s.rej := by
  simp only [transportStep]; split <;> rfl
@[simp] theorem transportStep_fcause (s : State) : (transportStep s).fcause = s.fcause := by
  simp only [transportStep]; split <;> rfl
@[simp] theorem transportStep_fcmd (s : State) : (transportStep s).fcmd = s.fcmd := by
  simp only [transportStep]; split <;> rfl
@[simp] theorem transportStep_cmdLo (s : State) : (transportStep s).cmdLo = s.cmdLo := by
  simp only [transportStep]; split <;> rfl
@[simp] theorem transportStep_responses (s : State) : (transportStep s).responses = s.responses := by
  simp only [transportStep]; split <;> rfl
@[simp] theorem transportStep_inputs (s : State) : (transportStep s).inputs = s.inputs := by
  simp only [transportStep]; split <;> rfl

@[simp] theorem transportStep_oq (s : State) : (transportStep s).oq = s.oq.tail := by
  simp only [transportStep]; split
  · rename_i h; simp [h]
  · rename_i h; simp [h]

/-- What is delivered, then what is queued: a Transport step moves the boundary and nothing else. -/
theorem transportStep_stream (s : State) :
    (transportStep s).delivered ++ (transportStep s).oq = s.delivered ++ s.oq := by
  simp only [transportStep]; split
  · rfl
  · rename_i h; simp [h]

end Sys2Proof.Machine
end

