-- ==== Sys2Proof/Laws/Memory.lean ====
section
/-! SUPPORT. The store: read after write, the canonical form, keys, and the bytes and cells of State. -/

namespace Sys2Proof.Machine

/-! ## Read after write -/

theorem memRead_memWrite (m : Memory) (a b : Nat) (v : Byte) :
    memRead (memWrite m a v) b = if b = a then some v else memRead m b := by
  induction m with
  | nil => simp [memWrite, memRead]
  | cons e m ih =>
    obtain ⟨k, w⟩ := e
    simp only [memWrite]
    split
    · simp [memRead]
    · split
      · rename_i h; subst h; simp only [memRead]; split <;> simp_all
      · rename_i h1 h2
        simp only [memRead, ih]
        split
        · rename_i h; subst h; simp [Ne.symm h2]
        · rfl

@[simp] theorem memRead_memWrite_same (m : Memory) (a : Nat) (v : Byte) : memRead (memWrite m a v) a = some v := by
  simp [memRead_memWrite]

theorem memRead_memWrite_other {a b : Nat} (m : Memory) (v : Byte) (h : b ≠ a) :
    memRead (memWrite m a v) b = memRead m b := by
  simp [memRead_memWrite, h]

/-! ## The canonical form -/

theorem memWrite_key {m : Memory} {a : Nat} {v : Byte} {e : Host.Cell} (h : e ∈ memWrite m a v) :
    e = (a, v) ∨ e ∈ m := by
  induction m with
  | nil => simpa [memWrite] using h
  | cons f m ih =>
    obtain ⟨k, w⟩ := f
    simp only [memWrite] at h
    split at h
    · simpa using h
    · split at h
      · rcases List.mem_cons.1 h with h | h
        · exact .inl h
        · exact .inr (List.mem_cons_of_mem _ h)
      · rcases List.mem_cons.1 h with h | h
        · exact .inr (by simp [h])
        · rcases ih h with h | h
          · exact .inl h
          · exact .inr (List.mem_cons_of_mem _ h)

/-- Every write keeps the canonical form. -/
theorem memWrite_wf {m : Memory} (a : Nat) (v : Byte) (h : Memory.wf m) : Memory.wf (memWrite m a v) := by
  induction m with
  | nil => simp [memWrite, Memory.wf]
  | cons f m ih =>
    obtain ⟨k, w⟩ := f
    have hk := List.pairwise_cons.1 h
    simp only [memWrite]
    split
    · rename_i hlt
      refine List.pairwise_cons.2 ⟨fun e he => ?_, h⟩
      rcases List.mem_cons.1 he with he | he
      · simpa [he] using hlt
      · exact Nat.lt_trans hlt (hk.1 e he)
    · split
      · rename_i heq; subst heq
        exact List.pairwise_cons.2 ⟨hk.1, hk.2⟩
      · rename_i h1 h2
        refine List.pairwise_cons.2 ⟨fun e he => ?_, ih hk.2⟩
        rcases memWrite_key he with he | he
        · subst he; show k < a; omega
        · exact hk.1 e he

/-- Canonical stores with the same reads are the same list. -/
theorem memory_ext {m n : Memory} (hm : Memory.wf m) (hn : Memory.wf n) (h : ∀ a, memRead m a = memRead n a) :
    m = n := by
  have none_of_lt : ∀ {l : Memory} {k : Nat}, (∀ e ∈ l, k < e.1) → memRead l k = none := by
    intro l k hl
    induction l with
    | nil => rfl
    | cons e l ih =>
      have := hl e (by simp)
      simp only [memRead]
      rw [if_neg (by omega)]
      exact ih (fun e he => hl e (List.mem_cons_of_mem _ he))
  induction m generalizing n with
  | nil =>
    cases n with
    | nil => rfl
    | cons e n => have := h e.1; simp [memRead] at this
  | cons e m ih =>
    obtain ⟨k, w⟩ := e
    cases n with
    | nil => have := h k; simp [memRead] at this
    | cons f n =>
      obtain ⟨j, x⟩ := f
      have hm' := List.pairwise_cons.1 hm
      have hn' := List.pairwise_cons.1 hn
      have hkj : k = j := by
        rcases Nat.lt_trichotomy k j with hlt | heq | hgt
        · have hr := h k
          have : memRead n k = none := none_of_lt (fun e he => Nat.lt_trans hlt (hn'.1 e he))
          simp [memRead, this, Nat.ne_of_lt hlt] at hr
        · exact heq
        · have hr := h j
          have : memRead m j = none := none_of_lt (fun e he => Nat.lt_trans hgt (hm'.1 e he))
          simp [memRead, this, Nat.ne_of_lt hgt] at hr
      subst hkj
      have hwx : w = x := by have := h k; simpa [memRead] using this
      subst hwx
      rw [ih hm'.2 hn'.2 (fun a => ?_)]
      rcases Nat.lt_or_ge k a with hlt | hge
      · have := h a; simpa [memRead, Nat.ne_of_gt hlt] using this
      · rw [none_of_lt (fun e he => Nat.lt_of_le_of_lt hge (hm'.1 e he)),
          none_of_lt (fun e he => Nat.lt_of_le_of_lt hge (hn'.1 e he))]

/-! ## Keys -/

theorem cellKey_inj {b c p b' c' p' : Nat} (hc : c < 128) (hp : p < 8) (hc' : c' < 128) (hp' : p' < 8) :
    cellKey b c p = cellKey b' c' p' ↔ b = b' ∧ c = c' ∧ p = p' := by
  unfold cellKey
  constructor
  · intro h; omega
  · rintro ⟨rfl, rfl, rfl⟩; rfl

theorem cellKey_lt {b c p n : Nat} (hb : b < n) (hc : c < 128) (hp : p < 8) : cellKey b c p < n * 1024 := by
  unfold cellKey
  have : (b + 1) * 1024 ≤ n * 1024 := Nat.mul_le_mul_right _ hb
  omega

/-! ## Bytes and cells -/

theorem byteAt_congr {s t : State} (hc : t.cells = s.cells) (hp : t.powerOn = s.powerOn) (a : Nat) :
    byteAt t a = byteAt s a := by
  simp [byteAt, hc, hp]

theorem cell_congr {s t : State} (hc : t.cells = s.cells) (hp : t.powerOn = s.powerOn) (b c p : Nat) :
    cell t b c p = cell s b c p := byteAt_congr hc hp _

theorem byteAt_setCell (s : State) (c p : Nat) (v : Byte) (a : Nat) :
    byteAt (setCell s c p v) a = if a = curKey s c p then v else byteAt s a := by
  simp only [byteAt, setCell_cells, setCell_powerOn, memRead_memWrite]
  split <;> simp

@[simp] theorem cell_setCell_same (s : State) (c p : Nat) (v : Byte) :
    cell (setCell s c p v) s.cur.toNat c p = v := by
  simp [cell, byteAt_setCell, curKey]

theorem cell_setCell {s : State} {c p : Nat} (hc : c < 128) (hp : p < 8) (v : Byte) {b c' p' : Nat}
    (hc' : c' < 128) (hp' : p' < 8) :
    cell (setCell s c p v) b c' p' = if b = s.cur.toNat ∧ c' = c ∧ p' = p then v else cell s b c' p' := by
  simp only [cell, byteAt_setCell, curKey, cellKey_inj hc' hp' hc hp]

/-! ## What leaves the store alone -/

theorem byteAt_done (s : State) (a : Nat) : byteAt (done s) a = byteAt s a := rfl

theorem cell_done (s : State) (b c p : Nat) : cell (done s) b c p = cell s b c p := rfl

theorem pixel_done (s : State) (b x y : Nat) : pixel (done s) b x y = pixel s b x y := rfl

theorem sameStore_of_cells {s t : State} (hc : t.cells = s.cells) (hp : t.powerOn = s.powerOn) : SameStore s t :=
  byteAt_congr hc hp

end Sys2Proof.Machine
end

