-- ==== Sys2Proof/Laws/Pixel.lean ====
section
/-! SUPPORT. What the pixel helpers do, pixel by pixel and byte by byte: `mergeBits`, `writePixel`, `vRun`, `hRun`,
`clearColumn`, `clearRect` (40_pixel_run.md R80 to R104). -/

namespace Sys2Proof.Machine

/-! ## Masks -/

/-- The formula of R81, whichever bits the mask marks. -/
theorem mergeBits_eq (m new old : Byte) : mergeBits m new old = (old &&& ~~~m) ||| (new &&& m) := by
  unfold mergeBits
  split
  · rename_i h; subst h
    rw [show ~~~(0xFF : Byte) = 0#8 by decide, show (0xFF : Byte) = BitVec.allOnes 8 by decide,
      BitVec.and_zero, BitVec.zero_or, BitVec.and_allOnes]
  · rfl

theorem getLsbD_mergeBits (m new old : Byte) {i : Nat} (hi : i < 8) :
    (mergeBits m new old).getLsbD i = if m.getLsbD i then new.getLsbD i else old.getLsbD i := by
  rw [mergeBits_eq, BitVec.getLsbD_or, BitVec.getLsbD_and, BitVec.getLsbD_and, BitVec.getLsbD_not]
  simp only [hi, decide_true, Bool.true_and]
  cases m.getLsbD i <;> simp

theorem getLsbD_runMaskFirst {n off i : Nat} (hn : n ≤ 8) (hoff : off < 8) (hi : i < 8) :
    (runMaskFirst n off).getLsbD i = decide (off ≤ i ∧ i < off + n) := by
  have h : ∀ n < 9, ∀ off < 8, ∀ i < 8, (runMaskFirst n off).getLsbD i = decide (off ≤ i ∧ i < off + n) := by decide
  exact h n (by omega) off hoff i hi

theorem getLsbD_runMaskSecond {n off i : Nat} (hn : n ≤ 8) (hoff : off < 8) (hi : i < 8) :
    (runMaskSecond n off).getLsbD i = decide (i < off + n - 8) := by
  have h : ∀ n < 9, ∀ off < 8, ∀ i < 8, (runMaskSecond n off).getLsbD i = decide (i < off + n - 8) := by decide
  exact h n (by omega) off hoff i hi

/-! ## Pixels of a written cell -/

theorem pixel_congr {s t : State} (hc : t.cells = s.cells) (hp : t.powerOn = s.powerOn) (b x y : Nat) :
    pixel t b x y = pixel s b x y := by
  simp [pixel, cell_congr hc hp]

theorem pixel_setCell {s : State} {c p : Nat} (hc : c < 128) (hp : p < 8) (v : Byte) {b x y : Nat} (hx : x < 128)
    (hy : y < 64) :
    pixel (setCell s c p v) b x y =
      if b = s.cur.toNat ∧ x = c ∧ y / 8 = p then v.getLsbD (y % 8) else pixel s b x y := by
  simp only [pixel, cell_setCell hc hp v hx (show y / 8 < 8 by omega)]
  split <;> rfl

/-- `WritePixel` changes one pixel and no other (R80). -/
theorem pixel_writePixel {x y : Nat} (hx : x < 128) (hy : y < 64) (v : Bool) (s : State) {b x' y' : Nat}
    (hx' : x' < 128) (hy' : y' < 64) :
    pixel (writePixel x y v s) b x' y' =
      if b = s.cur.toNat ∧ x' = x ∧ y' = y then v else pixel s b x' y' := by
  simp only [writePixel, pixel_setCell hx (show y / 8 < 8 by omega) _ hx' hy']
  by_cases h : b = s.cur.toNat ∧ x' = x ∧ y' / 8 = y / 8
  · obtain ⟨rfl, rfl, hpg⟩ := h
    rw [if_pos ⟨rfl, rfl, hpg⟩]
    have bits : ∀ (old : Byte) (v : Bool), ∀ i < 8, ∀ j < 8,
        ((old &&& ~~~((1 : Byte) <<< i)) ||| ((BitVec.ofBool v).setWidth 8 <<< i)).getLsbD j =
          if j = i then v else old.getLsbD j := by
      intro old v i hi j hj
      by_cases hij : j = i
      · subst hij; cases v <;> simp [hj]
      · have h1 : ((1 : Byte) <<< i).getLsbD j = false := by
          have : ∀ i < 8, ∀ j < 8, j ≠ i → ((1 : Byte) <<< i).getLsbD j = false := by decide
          exact this i hi j hj hij
        have h2 : ((BitVec.ofBool v).setWidth 8 <<< i).getLsbD j = false := by
          have : ∀ v : Bool, ∀ i < 8, ∀ j < 8, j ≠ i → ((BitVec.ofBool v).setWidth 8 <<< i).getLsbD j = false := by
            decide
          exact this v i hi j hj hij
        rw [BitVec.getLsbD_or, BitVec.getLsbD_and, h2, BitVec.getLsbD_not, h1]
        simp [hj, hij]
    rw [bits _ _ _ (by omega) _ (by omega)]
    by_cases hy2 : y' = y
    · subst hy2; simp
    · have : y' % 8 ≠ y % 8 := by omega
      simp only [this, hy2, if_false, and_false]
      simp [pixel, hpg]
  · rw [if_neg h, if_neg (fun h2 => h ⟨h2.1, h2.2.1, by rw [h2.2.2]⟩)]

/-- The low half of the shifted pattern (R81). -/
theorem getLsbD_shifted_pattern (pat : Byte) {off i : Nat} (hi : i < 8) (h : off ≤ i) :
    ((pat.setWidth 16 <<< off).setWidth 8).getLsbD i = pat.getLsbD (i - off) := by
  rw [BitVec.getLsbD_setWidth, BitVec.getLsbD_shiftLeft, BitVec.getLsbD_setWidth]
  simp only [hi, show i < 16 by omega, show ¬ i < off by omega, show i - off < 16 by omega, decide_true, decide_false,
    Bool.true_and, Bool.not_false]

/-- `VRun` writes pattern bits 0 to n-1 to rows y to y+n-1 of column x, and no other pixel (R81, R82). -/
theorem pixel_vRun {x y n : Nat} (hx : x < 128) (hn : 1 ≤ n) (hn8 : n ≤ 8) (hy : y + n ≤ 64) (pat : Byte) (s : State)
    {b x' y' : Nat} (hx' : x' < 128) (hy' : y' < 64) :
    pixel (vRun x y pat n s) b x' y' =
      if b = s.cur.toNat ∧ x' = x ∧ y ≤ y' ∧ y' < y + n then pat.getLsbD (y' - y) else pixel s b x' y' := by
  have first : ∀ (new old : Byte), new = (pat.setWidth 16 <<< (y % 8)).setWidth 8 → y' / 8 = y / 8 →
      (mergeBits (runMaskFirst n (y % 8)) new old).getLsbD (y' % 8) =
        if y ≤ y' ∧ y' < y + n then pat.getLsbD (y' - y) else old.getLsbD (y' % 8) := by
    intro new old hnew hpg
    subst hnew
    rw [getLsbD_mergeBits _ _ _ (by omega), getLsbD_runMaskFirst hn8 (by omega) (by omega)]
    by_cases h : y % 8 ≤ y' % 8 ∧ y' % 8 < y % 8 + n
    · rw [getLsbD_shifted_pattern pat (by omega) h.1]
      have e : y' % 8 - y % 8 = y' - y := by omega
      simp only [h, and_self, decide_true, if_true, e]
      rw [if_pos (by omega)]
    · simp only [h, decide_false, Bool.false_eq_true, if_false]
      rw [if_neg (by omega)]
  simp only [vRun]
  split
  · rename_i hcross
    generalize hw1 : mergeBits (runMaskFirst n (y % 8)) _ _ = w1
    have hcur : (setCell s x (y / 8) w1).cur = s.cur := rfl
    have hcell : cell (setCell s x (y / 8) w1) s.cur.toNat x (y / 8 + 1) = cell s s.cur.toNat x (y / 8 + 1) := by
      rw [cell_setCell hx (show y / 8 < 8 by omega) _ hx (show y / 8 + 1 < 8 by omega), if_neg (by omega)]
    rw [pixel_setCell hx (show y / 8 + 1 < 8 by omega) _ hx' hy', hcur, hcell]
    by_cases h2 : b = s.cur.toNat ∧ x' = x ∧ y' / 8 = y / 8 + 1
    · obtain ⟨rfl, rfl, hpg⟩ := h2
      rw [if_pos ⟨rfl, rfl, hpg⟩, getLsbD_mergeBits _ _ _ (by omega),
        getLsbD_runMaskSecond hn8 (by omega) (by omega)]
      by_cases h : y' % 8 < y % 8 + n - 8
      · have e : 8 - y % 8 + y' % 8 = y' - y := by omega
        rw [decide_eq_true h, if_pos rfl, BitVec.getLsbD_ushiftRight, e, if_pos (by omega)]
      · rw [decide_eq_false h, if_neg Bool.false_ne_true, if_neg (by omega)]
        simp only [pixel, hpg]
    · rw [if_neg h2, pixel_setCell hx (show y / 8 < 8 by omega) _ hx' hy']
      by_cases h1 : b = s.cur.toNat ∧ x' = x ∧ y' / 8 = y / 8
      · obtain ⟨rfl, rfl, hpg⟩ := h1
        rw [if_pos ⟨rfl, rfl, hpg⟩, ← hw1, first _ _ rfl hpg]
        simp only [true_and, pixel, hpg]
      · rw [if_neg h1, if_neg]
        rintro ⟨rfl, rfl, ha, hb⟩
        have h1' : y' / 8 ≠ y / 8 := fun e => h1 ⟨rfl, rfl, e⟩
        have h2' : y' / 8 ≠ y / 8 + 1 := fun e => h2 ⟨rfl, rfl, e⟩
        omega
  · rename_i hcross
    rw [pixel_setCell hx (show y / 8 < 8 by omega) _ hx' hy']
    by_cases h1 : b = s.cur.toNat ∧ x' = x ∧ y' / 8 = y / 8
    · obtain ⟨rfl, rfl, hpg⟩ := h1
      rw [if_pos ⟨rfl, rfl, hpg⟩, first _ _ rfl hpg]
      simp only [true_and, pixel, hpg]
    · rw [if_neg h1, if_neg]
      rintro ⟨rfl, rfl, ha, hb⟩
      have h1' : y' / 8 ≠ y / 8 := fun e => h1 ⟨rfl, rfl, e⟩
      omega

/-! ## Loops over the pixel helpers -/

/-- A loop of steps that each change the cells only changes the cells only. -/
theorem foldl_range_cells {f : State → Nat → State} (hf : ∀ t j, f t j = { t with cells := (f t j).cells }) (n : Nat)
    (s : State) : (List.range n).foldl f s = { s with cells := ((List.range n).foldl f s).cells } := by
  induction n with
  | zero => rfl
  | succ n ih =>
    rw [List.range_succ, List.foldl_append, List.foldl_cons, List.foldl_nil, hf]
    generalize (f _ n).cells = m
    rw [ih]

theorem writePixel_eq (x y : Nat) (v : Bool) (s : State) :
    writePixel x y v s = { s with cells := (writePixel x y v s).cells } := rfl

theorem vRun_eq (x y : Nat) (pat : Byte) (n : Nat) (s : State) :
    vRun x y pat n s = { s with cells := (vRun x y pat n s).cells } := by
  simp only [vRun]; split <;> rfl

theorem hRun_eq (x y : Nat) (pat : Byte) (n : Nat) (s : State) :
    hRun x y pat n s = { s with cells := (hRun x y pat n s).cells } :=
  foldl_range_cells (fun _ _ => writePixel_eq _ _ _ _) n s

theorem clearColumn_eq (c y h : Nat) (s : State) :
    clearColumn c y h s = { s with cells := (clearColumn c y h s).cells } :=
  foldl_range_cells (fun _ _ => vRun_eq _ _ _ _ _) _ s

theorem clearRect_eq (x y w h : Nat) (s : State) :
    clearRect x y w h s = { s with cells := (clearRect x y w h s).cells } :=
  foldl_range_cells (fun _ _ => clearColumn_eq _ _ _ _) _ s

theorem hRun_succ (x y : Nat) (pat : Byte) (n : Nat) (s : State) :
    hRun x y pat (n + 1) s = writePixel (x + n) y (pat.getLsbD (7 - n)) (hRun x y pat n s) := by
  simp [hRun, List.range_succ]

theorem clearRect_succ (x y w h : Nat) (s : State) :
    clearRect x y (w + 1) h s = clearColumn (x + w) y h (clearRect x y w h s) := by
  simp [clearRect, List.range_succ]

/-- The loop of RUNH: for j < n, pixel (x+j, y) takes D[7-j], and no other pixel changes (R97). -/
theorem pixel_hRun {x y n : Nat} (hx : x + n ≤ 128) (hy : y < 64) (pat : Byte) (s : State) {b x' y' : Nat}
    (hx' : x' < 128) (hy' : y' < 64) :
    pixel (hRun x y pat n s) b x' y' =
      if b = s.cur.toNat ∧ y' = y ∧ x ≤ x' ∧ x' < x + n then pat.getLsbD (7 - (x' - x)) else pixel s b x' y' := by
  induction n with
  | zero => rw [if_neg (by omega)]; rfl
  | succ n ih =>
    have hcur : (hRun x y pat n s).cur = s.cur := by rw [hRun_eq]
    rw [hRun_succ, pixel_writePixel (by omega) hy _ _ hx' hy', ih (by omega), hcur]
    by_cases h : b = s.cur.toNat ∧ x' = x + n ∧ y' = y
    · obtain ⟨rfl, rfl, rfl⟩ := h
      rw [if_pos ⟨rfl, rfl, rfl⟩, if_pos (by omega)]
      congr 2; omega
    · rw [if_neg h]
      by_cases h2 : b = s.cur.toNat ∧ y' = y ∧ x ≤ x' ∧ x' < x + n
      · rw [if_pos h2, if_pos (by omega)]
      · rw [if_neg h2, if_neg]
        rintro ⟨rfl, rfl, h3, h4⟩
        have : x' ≠ x + n := fun e => h ⟨rfl, e, rfl⟩
        exact h2 ⟨rfl, rfl, h3, by omega⟩

/-- The loop of CLEAR over one column: rows y to y+h-1 become 0, and no other pixel changes (R103, R104). -/
theorem pixel_clearColumn {c y h : Nat} (hc : c < 128) (hy : y + h ≤ 64) (s : State) {b x' y' : Nat} (hx' : x' < 128)
    (hy' : y' < 64) :
    pixel (clearColumn c y h s) b x' y' =
      if b = s.cur.toNat ∧ x' = c ∧ y ≤ y' ∧ y' < y + h then false else pixel s b x' y' := by
  have loop : ∀ m, m ≤ (h + 7) / 8 →
      (let t := (List.range m).foldl (fun t k => vRun c (y + 8 * k) 0x00 (min 8 (h - 8 * k)) t) s
       t.cur = s.cur ∧ pixel t b x' y' =
        if b = s.cur.toNat ∧ x' = c ∧ y ≤ y' ∧ y' < y + min h (8 * m) then false else pixel s b x' y') := by
    intro m hm
    induction m with
    | zero => exact ⟨rfl, by rw [if_neg (by omega)]; rfl⟩
    | succ m ih =>
      obtain ⟨icur, ipix⟩ := ih (by omega)
      simp only [List.range_succ, List.foldl_append, List.foldl_cons, List.foldl_nil]
      refine ⟨by simpa using icur, ?_⟩
      rw [pixel_vRun hc (by omega) (by omega) (by omega) _ _ hx' hy', icur, ipix]
      by_cases h1 : b = s.cur.toNat ∧ x' = c ∧ y + 8 * m ≤ y' ∧ y' < y + 8 * m + min 8 (h - 8 * m)
      · rw [if_pos h1, if_pos (by omega)]; simp
      · rw [if_neg h1]
        by_cases h2 : b = s.cur.toNat ∧ x' = c ∧ y ≤ y' ∧ y' < y + min h (8 * m)
        · rw [if_pos h2, if_pos (by omega)]
        · rw [if_neg h2, if_neg]
          rintro ⟨rfl, rfl, h3, h4⟩
          by_cases h5 : y' < y + min h (8 * m)
          · exact h2 ⟨rfl, rfl, h3, h5⟩
          · exact h1 ⟨rfl, rfl, by omega, by omega⟩
  have := (loop _ (Nat.le_refl _)).2
  rw [show min h (8 * ((h + 7) / 8)) = h by omega] at this
  exact this

/-- CLEAR's loops: the rectangle becomes 0, and no other pixel of any buffer changes (R104). -/
theorem pixel_clearRect {x y w h : Nat} (hx : x + w ≤ 128) (hy : y + h ≤ 64) (s : State) {b x' y' : Nat}
    (hx' : x' < 128) (hy' : y' < 64) :
    pixel (clearRect x y w h s) b x' y' =
      if b = s.cur.toNat ∧ (x ≤ x' ∧ x' < x + w) ∧ y ≤ y' ∧ y' < y + h then false else pixel s b x' y' := by
  induction w with
  | zero => rw [if_neg (by omega)]; rfl
  | succ w ih =>
    have hcur : (clearRect x y w h s).cur = s.cur := by rw [clearRect_eq]
    rw [clearRect_succ, pixel_clearColumn (by omega) hy _ hx' hy', ih (by omega), hcur]
    by_cases h1 : b = s.cur.toNat ∧ x' = x + w ∧ y ≤ y' ∧ y' < y + h
    · rw [if_pos h1, if_pos (by omega)]
    · rw [if_neg h1]
      by_cases h2 : b = s.cur.toNat ∧ (x ≤ x' ∧ x' < x + w) ∧ y ≤ y' ∧ y' < y + h
      · rw [if_pos h2, if_pos (by omega)]
      · rw [if_neg h2, if_neg]
        rintro ⟨rfl, ⟨h3, h4⟩, h5, h6⟩
        by_cases h7 : x' = x + w
        · exact h1 ⟨rfl, h7, h5, h6⟩
        · exact h2 ⟨rfl, ⟨h3, by omega⟩, h5, h6⟩

/-! ## Bytes outside the written cells -/

theorem byteAt_writePixel_other {x y : Nat} (v : Bool) {s : State} {a : Nat} (h : a ≠ curKey s x (y / 8)) :
    byteAt (writePixel x y v s) a = byteAt s a := by
  simp [writePixel, byteAt_setCell, h]

theorem byteAt_vRun_other {x y n : Nat} (pat : Byte) {s : State} {a : Nat} (h : a ≠ curKey s x (y / 8))
    (h2 : y % 8 + n > 8 → a ≠ curKey s x (y / 8 + 1)) : byteAt (vRun x y pat n s) a = byteAt s a := by
  have hk : ∀ v, curKey (setCell s x (y / 8) v) x (y / 8 + 1) = curKey s x (y / 8 + 1) := fun _ => rfl
  simp only [vRun]
  split
  · rename_i hc; rw [byteAt_setCell, hk, if_neg (h2 hc), byteAt_setCell, if_neg h]
  · rw [byteAt_setCell, if_neg h]

theorem byteAt_hRun_other {x y n : Nat} (pat : Byte) {s : State} {a : Nat}
    (h : ∀ j < n, a ≠ curKey s (x + j) (y / 8)) : byteAt (hRun x y pat n s) a = byteAt s a := by
  induction n with
  | zero => rfl
  | succ n ih =>
    have hk : curKey (hRun x y pat n s) (x + n) (y / 8) = curKey s (x + n) (y / 8) := by rw [hRun_eq]; rfl
    rw [hRun_succ, byteAt_writePixel_other _ (by rw [hk]; exact h n (by omega)), ih (fun j hj => h j (by omega))]

theorem byteAt_clearColumn_other {c y h : Nat} {s : State} {a : Nat}
    (ha : ∀ p, y / 8 ≤ p → 8 * p < y + h → a ≠ curKey s c p) : byteAt (clearColumn c y h s) a = byteAt s a := by
  have loop : ∀ m, m ≤ (h + 7) / 8 →
      (let t := (List.range m).foldl (fun t k => vRun c (y + 8 * k) 0x00 (min 8 (h - 8 * k)) t) s
       t.cur = s.cur ∧ byteAt t a = byteAt s a) := by
    intro m hm
    induction m with
    | zero => exact ⟨rfl, rfl⟩
    | succ m ih =>
      obtain ⟨icur, ib⟩ := ih (by omega)
      simp only [List.range_succ, List.foldl_append, List.foldl_cons, List.foldl_nil]
      refine ⟨by simpa using icur, ?_⟩
      rw [byteAt_vRun_other _ ?_ ?_, ib]
      · simp only [curKey, icur]; exact ha _ (by omega) (by omega)
      · intro hc; simp only [curKey, icur]; exact ha _ (by omega) (by omega)
  exact (loop _ (Nat.le_refl _)).2

theorem byteAt_clearRect_other {x y w h : Nat} {s : State} {a : Nat}
    (ha : ∀ j < w, ∀ p, y / 8 ≤ p → 8 * p < y + h → a ≠ curKey s (x + j) p) :
    byteAt (clearRect x y w h s) a = byteAt s a := by
  induction w with
  | zero => rfl
  | succ w ih =>
    have hk : ∀ p, curKey (clearRect x y w h s) (x + w) p = curKey s (x + w) p := by
      intro p; rw [clearRect_eq]; rfl
    rw [clearRect_succ, byteAt_clearColumn_other, ih (fun j hj => ha j (by omega))]
    intro p h1 h2; rw [hk]; exact ha w (by omega) p h1 h2

end Sys2Proof.Machine
end

