-- ==== Sys2Proof/Laws/Exec.lean ====
section
/-! SUPPORT. What a command can do, said once: `ExecOutcome`, and that `exec` always answers a next state with one. -/

namespace Sys2Proof.Machine

/-! ## What the drawing helpers write -/

/-- `m` is the store of `s` after writes to cells of buffer CUR only: the canonical form is kept, and every key is an old
one or the key of a cell of buffer CUR. -/
structure WroteCur (s : State) (m : Memory) : Prop where
  wf : Memory.wf s.cells → Memory.wf m
  keys : ∀ e ∈ m, (∃ f ∈ s.cells, f.1 = e.1) ∨ ∃ c < 128, ∃ p < 8, e.1 = curKey s c p

theorem WroteCur.refl (s : State) : WroteCur s s.cells := ⟨id, fun e he => .inl ⟨e, he, rfl⟩⟩

theorem WroteCur.setCell {s t : State} (h : WroteCur s t.cells) (hcur : t.cur = s.cur) {c p : Nat} (hc : c < 128)
    (hp : p < 8) (v : Byte) : WroteCur s (setCell t c p v).cells := by
  have hk : curKey t c p = curKey s c p := by simp [curKey, hcur]
  refine ⟨fun hw => memWrite_wf _ _ (h.wf hw), fun e he => ?_⟩
  rcases memWrite_key he with he | he
  · exact .inr ⟨c, hc, p, hp, by rw [he]; exact hk⟩
  · exact h.keys e he

theorem WroteCur.writePixel {s t : State} (h : WroteCur s t.cells) (hcur : t.cur = s.cur) {x y : Nat} (hx : x < 128)
    (hy : y < 64) (v : Bool) : WroteCur s (writePixel x y v t).cells :=
  h.setCell hcur hx (show y / 8 < 8 by omega) _

theorem WroteCur.vRun {s t : State} (h : WroteCur s t.cells) (hcur : t.cur = s.cur) {x y n : Nat} (hx : x < 128)
    (hn : 1 ≤ n) (hy : y + n ≤ 64) (pat : Byte) : WroteCur s (vRun x y pat n t).cells := by
  have h1 : ∀ v, WroteCur s (Machine.setCell t x (y / 8) v).cells := fun v =>
    h.setCell hcur hx (show y / 8 < 8 by omega) v
  simp only [Machine.vRun]
  split
  · exact (h1 _).setCell (by simpa using hcur) hx (by omega) _
  · exact h1 _

theorem wroteCur_hRun {x y n : Nat} (hx : x + n ≤ 128) (hy : y < 64) (pat : Byte) (s : State) :
    WroteCur s (hRun x y pat n s).cells := by
  induction n with
  | zero => exact WroteCur.refl s
  | succ n ih =>
    rw [hRun_succ]
    exact (ih (by omega)).writePixel (by rw [hRun_eq]) (by omega) hy _

theorem WroteCur.clearColumn {s t : State} (h : WroteCur s t.cells) (hcur : t.cur = s.cur) {c y n : Nat} (hc : c < 128)
    (hy : y + n ≤ 64) : WroteCur s (clearColumn c y n t).cells := by
  have loop : ∀ m, m ≤ (n + 7) / 8 →
      (let u := (List.range m).foldl (fun u k => Machine.vRun c (y + 8 * k) 0x00 (min 8 (n - 8 * k)) u) t
       u.cur = s.cur ∧ WroteCur s u.cells) := by
    intro m hm
    induction m with
    | zero => exact ⟨hcur, h⟩
    | succ m ih =>
      obtain ⟨icur, iw⟩ := ih (by omega)
      simp only [List.range_succ, List.foldl_append, List.foldl_cons, List.foldl_nil]
      exact ⟨by simpa using icur, iw.vRun icur hc (by omega) (by omega) _⟩
  exact (loop _ (Nat.le_refl _)).2

theorem wroteCur_clearRect {x y w h : Nat} (hx : x + w ≤ 128) (hy : y + h ≤ 64) (s : State) :
    WroteCur s (clearRect x y w h s).cells := by
  induction w with
  | zero => exact WroteCur.refl s
  | succ w ih =>
    rw [clearRect_succ]
    exact (ih (by omega)).clearColumn (by rw [clearRect_eq]) (by omega) hy

/-! ## What the queue takes -/

theorem foldl_emit (l : List Transaction) (s : State) :
    l.foldl (fun t x => emit x t) s = { s with oq := s.oq ++ l } := by
  induction l generalizing s with
  | nil => simp
  | cons a l ih => rw [List.foldl_cons, ih]; simp [emit]

theorem burst_length (s : State) (x w p : Nat) : (burst s x w p).length = w := by simp [burst]

/-- No page group holds an empty burst (R112, R20). -/
theorem flushGroups_bursts (s : State) (x y w h : Nat) : BurstsNonempty (flushGroups s x y w h) := by
  intro t ht
  obtain ⟨k, -, ht⟩ := List.mem_flatMap.1 ht
  unfold pageGroup at ht
  split at ht
  · simp at ht
  · rename_i hw
    rcases List.mem_append.1 ht with ht | ht
    · obtain ⟨b, -, rfl⟩ := List.mem_map.1 ht; simp
    · have : t = .data (burst s x w (y + k)) := by simpa using ht
      subst this
      intro he
      have : (burst s x w (y + k)).length = 0 := by injection he with he; rw [he]; rfl
      rw [burst_length] at this
      exact hw this

/-! ## The outcome of a command -/

/-- The commands that draw (40_pixel_run.md). -/
def Draws : Instr → Prop
  | .setpix _ _ _ => True
  | .runv _ _ _ _ => True
  | .runh _ _ _ _ => True
  | .clear _ _ _ _ => True
  | .nop => False
  | .flush _ _ _ _ => False
  | .cmd1 _ => False
  | .cmd2 _ _ => False
  | .bufnext => False
  | .bufprev => False
  | .bufgoto _ => False
  | .faultclr => False

/-- The commands that queue transactions (41_transport_dma.md). -/
def Queues : Instr → Prop
  | .flush _ _ _ _ => True
  | .cmd1 _ => True
  | .cmd2 _ _ => True
  | .setpix _ _ _ => False
  | .runv _ _ _ _ => False
  | .runh _ _ _ _ => False
  | .clear _ _ _ _ => False
  | .nop => False
  | .bufnext => False
  | .bufprev => False
  | .bufgoto _ => False
  | .faultclr => False

/-- The commands that select a buffer (42_buffer_select.md). -/
def Selects : Instr → Prop
  | .bufnext => True
  | .bufprev => True
  | .bufgoto _ => True
  | .flush _ _ _ _ => False
  | .cmd1 _ => False
  | .cmd2 _ _ => False
  | .setpix _ _ _ => False
  | .runv _ _ _ _ => False
  | .runh _ _ _ _ => False
  | .clear _ _ _ _ => False
  | .nop => False
  | .faultclr => False

/-- Everything a command can do (60_exceptions.md R145). -/
inductive ExecOutcome (i : Instr) (s : State) : State → Prop
  /-- Rejected: `REJ <- 1`, no other effect. -/
  | rejected : i.wellFormed s.params.nbuf = false → (¬ ∃ x y v, i = .setpix x y v) → ExecOutcome i s (reject s)
  /-- Faulted: the record is written with the command's own word, no other effect. -/
  | faulted (c : Cause) : i.wellFormed s.params.nbuf = false → Draws i →
      (c = .badValue ∨ c = .countRange ∨ c = .pixelRange) → ExecOutcome i s (raiseFault c (encode i) s)
  /-- Drawn in buffer CUR. -/
  | drew (m : Memory) : i.wellFormed s.params.nbuf = true → Draws i → WroteCur s m →
      ExecOutcome i s { s with cells := m, rej := false }
  /-- Transactions queued. -/
  | queued (l : List Transaction) : i.wellFormed s.params.nbuf = true → Queues i → BurstsNonempty l →
      ExecOutcome i s { s with oq := s.oq ++ l, rej := false }
  /-- A buffer selected. -/
  | selected (n : Nat) : i.wellFormed s.params.nbuf = true → Selects i →
      (0 < s.params.nbuf.toNat → n < s.params.nbuf.toNat) →
      ExecOutcome i s { s with cur := BitVec.ofNat 8 n, rej := false }
  /-- NOP. -/
  | nothing : i = .nop → ExecOutcome i s { s with rej := false }
  /-- FAULTCLR. -/
  | cleared : i = .faultclr → ExecOutcome i s { s with fault := false, fcause := 0, fcmd := 0, rej := false }

theorem done_drew {s t : State} (h : t = { s with cells := t.cells }) : done t = { s with cells := t.cells, rej := false } := by
  rw [done]; rw [h]

/-- Every command answers a next state, with one of the outcomes. -/
theorem exec_outcome (i : Instr) (s : State) : ∃ t, exec i s = .next t ∧ ExecOutcome i s t := by
  cases i with
  | nop => exact ⟨_, rfl, .nothing rfl⟩
  | setpix x y v =>
    simp only [exec, execSetpix]
    split
    · rename_i h
      exact ⟨_, rfl, .faulted .badValue (by simp [Instr.wellFormed]; omega) trivial (by simp)⟩
    · rename_i h1
      split
      · rename_i h2
        exact ⟨_, rfl, .faulted .pixelRange (by simp [Instr.wellFormed]; omega) trivial (by simp)⟩
      · rename_i h2
        refine ⟨_, rfl, ?_⟩
        rw [done_drew (writePixel_eq _ _ _ _)]
        exact .drew _ (by simp [Instr.wellFormed]; omega) trivial
          ((WroteCur.refl s).writePixel rfl (by omega) (by omega) _)
  | runv x y pattern count =>
    simp only [exec, execRunv]
    split
    · rename_i h
      exact ⟨_, rfl, .faulted .countRange (by simp [Instr.wellFormed]; omega) trivial (by simp)⟩
    · rename_i h1
      split
      · rename_i h2
        exact ⟨_, rfl, .faulted .pixelRange (by simp [Instr.wellFormed]; omega) trivial (by simp)⟩
      · rename_i h2
        refine ⟨_, rfl, ?_⟩
        rw [done_drew (vRun_eq _ _ _ _ _)]
        exact .drew _ (by simp [Instr.wellFormed]; omega) trivial
          ((WroteCur.refl s).vRun rfl (by omega) (by omega) (by omega) _)
  | runh x y pattern count =>
    simp only [exec, execRunh]
    split
    · rename_i h
      exact ⟨_, rfl, .faulted .countRange (by simp [Instr.wellFormed]; omega) trivial (by simp)⟩
    · rename_i h1
      split
      · rename_i h2
        exact ⟨_, rfl, .faulted .pixelRange (by simp [Instr.wellFormed]; omega) trivial (by simp)⟩
      · rename_i h2
        refine ⟨_, rfl, ?_⟩
        rw [done_drew (hRun_eq _ _ _ _ _)]
        exact .drew _ (by simp [Instr.wellFormed]; omega) trivial (wroteCur_hRun (by omega) (by omega) _ _)
  | clear x y w h =>
    simp only [exec, execClear]
    split
    · rename_i h
      exact ⟨_, rfl, .rejected (by simp [Instr.wellFormed]; omega) (by simp)⟩
    · rename_i h1
      refine ⟨_, rfl, ?_⟩
      rw [done_drew (clearRect_eq _ _ _ _ _)]
      exact .drew _ (by simp [Instr.wellFormed]; omega) trivial (wroteCur_clearRect (by omega) (by omega) _)
  | flush x y w h =>
    simp only [exec, execFlush]
    split
    · rename_i h
      exact ⟨_, rfl, .rejected (by simp [Instr.wellFormed]; omega) (by simp)⟩
    · rename_i h1
      refine ⟨_, rfl, ?_⟩
      rw [foldl_emit]
      exact .queued _ (by simp [Instr.wellFormed]; omega) trivial (flushGroups_bursts _ _ _ _ _)
  | cmd1 b => exact ⟨_, rfl, .queued [.cmd b] rfl trivial (by simp [BurstsNonempty])⟩
  | cmd2 b a =>
    refine ⟨_, rfl, ?_⟩
    have : done (emit (.cmd a) (emit (.cmd b) s)) = { s with oq := s.oq ++ [.cmd b, .cmd a], rej := false } := by
      simp [done, emit]
    rw [this]
    exact .queued [.cmd b, .cmd a] rfl trivial (by simp [BurstsNonempty])
  | bufnext => exact ⟨_, rfl, .selected _ rfl trivial (fun h => Nat.mod_lt _ h)⟩
  | bufprev => exact ⟨_, rfl, .selected _ rfl trivial (fun h => Nat.mod_lt _ h)⟩
  | bufgoto d =>
    simp only [exec, execBufgoto]
    split
    · rename_i h
      exact ⟨_, rfl, .rejected (by simp [Instr.wellFormed]; omega) (by simp)⟩
    · rename_i h
      exact ⟨_, rfl, .selected _ (by simp [Instr.wellFormed]; omega) trivial (fun _ => by omega)⟩
  | faultclr => exact ⟨_, rfl, .cleared rfl⟩

/-- What a command's next state is. -/
theorem exec_next {i : Instr} {s t : State} (h : exec i s = .next t) : ExecOutcome i s t := by
  obtain ⟨u, hu, ho⟩ := exec_outcome i s
  rw [hu] at h
  cases h
  exact ho

/-- One more command at the end of a list. -/
theorem execAll_append {l : List Instr} {i : Instr} {s t : State} (h : execAll l s = .next t) :
    execAll (l ++ [i]) s = exec i t := by
  induction l generalizing s with
  | nil =>
    simp only [execAll] at h
    cases h
    simp only [List.nil_append, execAll]
    split <;> simp_all
  | cons j l ih =>
    simp only [execAll, List.cons_append] at h ⊢
    split at h
    · exact ih h
    · cases h
    · cases h

end Sys2Proof.Machine
end

