-- ==== Sys2Proof/Laws/PerInstr.lean ====
section
/-! SUPPORT. Families of statements about every command as syntax, one lemma per constructor. -/

namespace Sys2Proof.Laws

/-- The zero mask `Z` of each command (30_encoding.md R70), by command. -/
def zeroMask : Instr → Word64
  | .nop => zeroNone
  | .setpix _ _ _ => zeroXYD
  | .runv _ _ _ _ => zeroXYDC
  | .runh _ _ _ _ => zeroXYDC
  | .clear _ _ _ _ => zeroXYWH
  | .flush _ _ _ _ => zeroXYWH
  | .cmd1 _ => zeroD
  | .cmd2 _ _ => zeroDC
  | .bufnext => zeroNone
  | .bufprev => zeroNone
  | .bufgoto _ => zeroD
  | .faultclr => zeroNone

/-- The fields of an encoded word under a mask, reduced to the bytes. -/
theorem enc_and_eq_zero {op d c x y w h : Byte} {z : Word64} (h7 : opField z = 0) (h5 : d &&& dField z = 0)
    (h4 : c &&& cField z = 0) (h3 : x &&& xField z = 0) (h2 : y &&& yField z = 0) (h1 : w &&& wField z = 0)
    (h0 : h &&& hField z = 0) : enc op d c x y w h &&& z = 0 := by
  rw [and_eq_zero_iff, opField_enc, rsv_enc, dField_enc, cField_enc, xField_enc, yField_enc, wField_enc, hField_enc, h7]
  exact ⟨by simp, by simp, h5, h4, h3, h2, h1, h0⟩

end Sys2Proof.Laws

/-! ## ReservedZero: the encoded word of a command has no reserved bit set (R70) -/

namespace Sys2Proof.Laws.ReservedZero

/-- The statement. -/
def Statement (i : Instr) : Prop := encode i &&& zeroMask i = 0

theorem nop : Statement .nop := by unfold Statement; decide
theorem setpix (x y v : Byte) : Statement (.setpix x y v) :=
  enc_and_eq_zero (show opField zeroXYD = 0 by decide) (by simp [zeroMask, show dField zeroXYD = 0 by decide]) (by simp)
    (by simp [zeroMask, show xField zeroXYD = 0 by decide]) (by simp [zeroMask, show yField zeroXYD = 0 by decide])
    (by simp) (by simp)
theorem runv (x y pattern count : Byte) : Statement (.runv x y pattern count) :=
  enc_and_eq_zero (show opField zeroXYDC = 0 by decide) (by simp [zeroMask, show dField zeroXYDC = 0 by decide])
    (by simp [zeroMask, show cField zeroXYDC = 0 by decide]) (by simp [zeroMask, show xField zeroXYDC = 0 by decide])
    (by simp [zeroMask, show yField zeroXYDC = 0 by decide]) (by simp) (by simp)
theorem runh (x y pattern count : Byte) : Statement (.runh x y pattern count) :=
  enc_and_eq_zero (show opField zeroXYDC = 0 by decide) (by simp [zeroMask, show dField zeroXYDC = 0 by decide])
    (by simp [zeroMask, show cField zeroXYDC = 0 by decide]) (by simp [zeroMask, show xField zeroXYDC = 0 by decide])
    (by simp [zeroMask, show yField zeroXYDC = 0 by decide]) (by simp) (by simp)
theorem clear (x y w h : Byte) : Statement (.clear x y w h) :=
  enc_and_eq_zero (show opField zeroXYWH = 0 by decide) (by simp) (by simp) (by simp [zeroMask, show xField zeroXYWH = 0 by decide])
    (by simp [zeroMask, show yField zeroXYWH = 0 by decide]) (by simp [zeroMask, show wField zeroXYWH = 0 by decide])
    (by simp [zeroMask, show hField zeroXYWH = 0 by decide])
theorem flush (col page ncols npages : Byte) : Statement (.flush col page ncols npages) :=
  enc_and_eq_zero (show opField zeroXYWH = 0 by decide) (by simp) (by simp) (by simp [zeroMask, show xField zeroXYWH = 0 by decide])
    (by simp [zeroMask, show yField zeroXYWH = 0 by decide]) (by simp [zeroMask, show wField zeroXYWH = 0 by decide])
    (by simp [zeroMask, show hField zeroXYWH = 0 by decide])
theorem cmd1 (byte : Byte) : Statement (.cmd1 byte) :=
  enc_and_eq_zero (show opField zeroD = 0 by decide) (by simp [zeroMask, show dField zeroD = 0 by decide]) (by simp) (by simp) (by simp)
    (by simp) (by simp)
theorem cmd2 (byte arg : Byte) : Statement (.cmd2 byte arg) :=
  enc_and_eq_zero (show opField zeroDC = 0 by decide) (by simp [zeroMask, show dField zeroDC = 0 by decide])
    (by simp [zeroMask, show cField zeroDC = 0 by decide]) (by simp) (by simp) (by simp) (by simp)
theorem bufnext : Statement .bufnext := by unfold Statement; decide
theorem bufprev : Statement .bufprev := by unfold Statement; decide
theorem bufgoto (index : Byte) : Statement (.bufgoto index) :=
  enc_and_eq_zero (show opField zeroD = 0 by decide) (by simp [zeroMask, show dField zeroD = 0 by decide]) (by simp) (by simp) (by simp)
    (by simp) (by simp)
theorem faultclr : Statement .faultclr := by unfold Statement; decide

end Sys2Proof.Laws.ReservedZero

/-! ## EncodedOpcode: the OP byte of the encoded word is the command's opcode (R69, R75) -/

namespace Sys2Proof.Laws.EncodedOpcode

/-- The statement. -/
def Statement (i : Instr) : Prop := opField (encode i) = opcode i

theorem nop : Statement .nop := opField_enc ..
theorem setpix (x y v : Byte) : Statement (.setpix x y v) := opField_enc ..
theorem runv (x y pattern count : Byte) : Statement (.runv x y pattern count) := opField_enc ..
theorem runh (x y pattern count : Byte) : Statement (.runh x y pattern count) := opField_enc ..
theorem clear (x y w h : Byte) : Statement (.clear x y w h) := opField_enc ..
theorem flush (col page ncols npages : Byte) : Statement (.flush col page ncols npages) := opField_enc ..
theorem cmd1 (byte : Byte) : Statement (.cmd1 byte) := opField_enc ..
theorem cmd2 (byte arg : Byte) : Statement (.cmd2 byte arg) := opField_enc ..
theorem bufnext : Statement .bufnext := opField_enc ..
theorem bufprev : Statement .bufprev := opField_enc ..
theorem bufgoto (index : Byte) : Statement (.bufgoto index) := opField_enc ..
theorem faultclr : Statement .faultclr := opField_enc ..

end Sys2Proof.Laws.EncodedOpcode
end

