-- ==== Sys2Proof/Laws/Step.lean ====
section
/-! SUPPORT. What a step can do, said once: `StepOutcome`, and that `step` always answers a next state with one. -/

namespace Sys2Proof.Machine

theorem commandWord_op (hi lo : Word32) : opField (commandWord hi lo) = hi.extractLsb' 24 8 := by
  apply BitVec.eq_of_toNat_eq
  rw [opField, field_toNat, commandWord, BitVec.toNat_append, BitVec.extractLsb'_toNat, Nat.shiftRight_eq_div_pow,
    Nat.shiftLeft_eq, Nat.mul_comm, or_eq_add_of_lt 32 hi.toNat rfl lo.isLt]
  have := lo.isLt
  omega

/-- The commit, by its four ways (10_state.md R38, 30_encoding.md R71). -/
inductive CommitOutcome (w : Word64) (s : State) : State → Prop
  /-- Discarded while faulted (60_exceptions.md R153). -/
  | discarded : s.fault = true → opField w ≠ 0x3F → CommitOutcome w s s
  /-- `OVERRUN` (R148). -/
  | overrun : (s.fault = true → opField w = 0x3F) → s.oq ≠ [] → CommitOutcome w s (raiseFault .overrun w s)
  /-- The decoder's fault (30_encoding.md R72). -/
  | undecoded (c : Cause) : (s.fault = true → opField w = 0x3F) → s.oq = [] →
      (decode w = .error .illegalOpcode ∧ c = .illegalOpcode ∨ decode w = .error .reservedField ∧ c = .reservedField) →
      CommitOutcome w s (raiseFault c w s)
  /-- The command. -/
  | executed (i : Instr) (t : State) : (s.fault = true → opField w = 0x3F) → s.oq = [] → decode w = .ok i →
      exec i s = .next t → ExecOutcome i s t → CommitOutcome w s t

theorem busy_eq_true (s : State) : busy s = true ↔ s.oq ≠ [] := by
  cases h : s.oq <;> simp [busy, h]

theorem commit_of_discarded {v : Word32} {s : State} (hf : s.fault = true)
    (ho : opField (commandWord v s.cmdLo) ≠ 0x3F) : commit v s = .next s := by
  unfold commit; simp only; rw [if_pos ⟨hf, ho⟩]

theorem commit_of_busy {v : Word32} {s : State} (hf : s.fault = true → opField (commandWord v s.cmdLo) = 0x3F)
    (hq : s.oq ≠ []) : commit v s = .next (raiseFault .overrun (commandWord v s.cmdLo) s) := by
  unfold commit; simp only; rw [if_neg (fun h => h.2 (hf h.1)), if_pos ((busy_eq_true s).2 hq)]

theorem commit_of_idle {v : Word32} {s : State} (hf : s.fault = true → opField (commandWord v s.cmdLo) = 0x3F)
    (hq : s.oq = []) : commit v s = executeWord (commandWord v s.cmdLo) s := by
  unfold commit; simp only
  rw [if_neg (fun h => h.2 (hf h.1)), if_neg (fun h => (busy_eq_true s).1 h hq)]

theorem commit_outcome (v : Word32) (s : State) :
    ∃ t, commit v s = .next t ∧ CommitOutcome (commandWord v s.cmdLo) s t := by
  unfold commit
  simp only
  split
  · rename_i h; exact ⟨_, rfl, .discarded h.1 h.2⟩
  · rename_i h
    have hf : s.fault = true → opField (commandWord v s.cmdLo) = 0x3F := fun hf => by
      by_contra hne; exact h ⟨hf, hne⟩
    split
    · rename_i hb
      exact ⟨_, rfl, .overrun hf ((busy_eq_true s).1 hb)⟩
    · rename_i hb
      have hq : s.oq = [] := by
        by_contra hne; exact hb ((busy_eq_true s).2 hne)
      unfold executeWord
      split
      · rename_i i hd
        obtain ⟨t, ht, ho⟩ := exec_outcome i s
        exact ⟨t, ht, .executed i t hf hq hd ht ho⟩
      · rename_i hd; exact ⟨_, rfl, .undecoded .illegalOpcode hf hq (.inl ⟨hd, rfl⟩)⟩
      · rename_i hd; exact ⟨_, rfl, .undecoded .reservedField hf hq (.inr ⟨hd, rfl⟩)⟩

/-- Everything a step can do. -/
inductive StepOutcome (s : State) : State → Prop
  /-- No input is left: the Transport's turn. -/
  | quiet : s.inputs = [] → StepOutcome s (transportStep s)
  /-- A read. -/
  | read (off : Offset) (n : Size) (rest : List Input) : s.inputs = .read off n :: rest →
      StepOutcome s (hostRead off n (setInputs rest s))
  /-- A write of CMD_LO. -/
  | staged (v : Word32) (rest : List Input) : s.inputs = .write 0x010 .word v :: rest →
      StepOutcome s (stageLow v (setInputs rest s))
  /-- A commit. -/
  | committed (w : Word64) (rest : List Input) (t : State) : Committing s w rest →
      CommitOutcome w (setInputs rest s) t → StepOutcome s t
  /-- A write that is a bad access. -/
  | badWrite (off : Offset) (n : Size) (v : Word32) (rest : List Input) : s.inputs = .write off n v :: rest →
      ¬ WriteServed off n →
      StepOutcome s (raiseFault .badAccess (accessDescriptor true n off) (setInputs rest s))
  /-- A turn of the Transport. -/
  | turn (rest : List Input) : s.inputs = .transport :: rest → StepOutcome s (transportStep (setInputs rest s))
  /-- The reset input. -/
  | reset (rest : List Input) : s.inputs = .reset :: rest → StepOutcome s (resetInput (setInputs rest s))

theorem offset_eq_iff (off : Offset) (k : Nat) (hk : k < 4096) : off.toNat = k ↔ off = BitVec.ofNat 12 k := by
  constructor
  · intro h; apply BitVec.eq_of_toNat_eq; rw [BitVec.toNat_ofNat, Nat.mod_eq_of_lt hk, h]
  · intro h; rw [h, BitVec.toNat_ofNat, Nat.mod_eq_of_lt hk]

/-- Every step answers a next state, with one of the outcomes. -/
theorem step_outcome (s : State) : ∃ t, step s = .next t ∧ StepOutcome s t := by
  unfold step serveNext
  split
  · rename_i h; exact ⟨_, rfl, .quiet h⟩
  · rename_i e rest h
    cases e with
    | read off n => exact ⟨_, rfl, .read off n rest h⟩
    | write off n v =>
      simp only [serve, hostWrite]
      split
      · rename_i hc
        obtain ⟨rfl, hoff⟩ := hc
        obtain rfl := (offset_eq_iff off 0x010 (by omega)).1 hoff
        exact ⟨_, rfl, .staged v rest h⟩
      · rename_i hc1
        split
        · rename_i hc
          obtain ⟨rfl, hoff⟩ := hc
          obtain rfl := (offset_eq_iff off 0x014 (by omega)).1 hoff
          obtain ⟨t, ht, ho⟩ := commit_outcome v (setInputs rest s)
          exact ⟨t, ht, .committed _ rest t ⟨v, h, rfl⟩ ho⟩
        · rename_i hc2
          refine ⟨_, rfl, .badWrite off n v rest h ?_⟩
          rintro ⟨rfl, hw | hw⟩
          · exact hc1 ⟨rfl, (offset_eq_iff off 0x010 (by omega)).2 hw⟩
          · exact hc2 ⟨rfl, (offset_eq_iff off 0x014 (by omega)).2 hw⟩
    | transport => exact ⟨_, rfl, .turn rest h⟩
    | reset => exact ⟨_, rfl, .reset rest h⟩

/-- What a step's next state is. -/
theorem step_next {s t : State} (h : step s = .next t) : StepOutcome s t := by
  obtain ⟨u, hu, ho⟩ := step_outcome s
  rw [hu] at h
  cases h
  exact ho

/-- The commit as the head input. -/
theorem step_commit {s : State} {v : Word32} {rest : List Input} (h : s.inputs = .write 0x014 .word v :: rest) :
    step s = commit v (setInputs rest s) := by
  simp [step, serveNext, h, serve, hostWrite]

/-- A read changes the responses, and the fault record if it is a bad access. -/
theorem hostRead_eq (off : Offset) (n : Size) (s : State) :
    (∃ v, readValue s off.toNat n = some v ∧ hostRead off n s = respond v s) ∨
      (readValue s off.toNat n = none ∧
        hostRead off n s = respond 0 (raiseFault .badAccess (accessDescriptor false n off) s)) := by
  unfold hostRead
  cases h : readValue s off.toNat n with
  | some v => exact .inl ⟨v, rfl, rfl⟩
  | none => exact .inr ⟨rfl, rfl⟩

end Sys2Proof.Machine
end

