-- ==== Sys2Proof/Laws/Window.lean ====
section
/-! SUPPORT. The register window: the value of a read of FBWIN, the bad-access descriptor and STATUS as numbers and bits,
and what a read can do to the state (20_memory.md, 60_exceptions.md R147). -/

namespace Sys2Proof.Machine

theorem sizeBytes_bounds (n : Size) : 1 ≤ sizeBytes n ∧ sizeBytes n ≤ 4 := by cases n <;> decide

/-- The sum of R50, and its bound. -/
theorem fbwinValue_toNat (s : State) (a n : Nat) (hn : n ≤ 4) :
    (fbwinValue s a n).toNat = ((List.range n).map fun k => (fbwinByte s (a + k)).toNat * 2 ^ (8 * k)).sum ∧
      (fbwinValue s a n).toNat < 2 ^ (8 * n) := by
  induction n with
  | zero => simp [fbwinValue]
  | succ n ih =>
    obtain ⟨ih1, ih2⟩ := ih (by omega)
    have hb := (fbwinByte s (a + n)).isLt
    have hbyte : ((fbwinByte s (a + n)).setWidth 32 <<< (8 * n)).toNat = 2 ^ (8 * n) * (fbwinByte s (a + n)).toNat := by
      rw [BitVec.toNat_shiftLeft, BitVec.toNat_setWidth, Nat.mod_eq_of_lt (a := (fbwinByte s (a + n)).toNat) (by omega),
        Nat.shiftLeft_eq, Nat.mod_eq_of_lt, Nat.mul_comm]
      calc _ < 2 ^ 8 * 2 ^ (8 * n) := Nat.mul_lt_mul_of_pos_right hb (Nat.pow_pos (by omega))
        _ = 2 ^ (8 + 8 * n) := (Nat.pow_add ..).symm
        _ ≤ 2 ^ 32 := Nat.pow_le_pow_right (by omega) (by omega)
    have hsum : (fbwinValue s a (n + 1)).toNat =
        2 ^ (8 * n) * (fbwinByte s (a + n)).toNat + (fbwinValue s a n).toNat := by
      rw [fbwinValue, BitVec.toNat_or, hbyte, Nat.or_comm, or_eq_add_of_lt _ _ rfl ih2]
    constructor
    · rw [hsum, List.range_succ, List.map_append, List.sum_append, ih1]; simp; rw [Nat.mul_comm, Nat.add_comm]
    · rw [hsum, show 8 * (n + 1) = 8 * n + 8 by omega, Nat.pow_add]
      have : 2 ^ (8 * n) * (fbwinByte s (a + n)).toNat ≤ 2 ^ (8 * n) * 255 := Nat.mul_le_mul_left _ (by omega)
      omega

/-- A read of FBWIN at a multiple of its size is served. -/
theorem hostRead_of_fbwin (s : State) (off : Offset) (n : Size) (h1 : 0x400 ≤ off.toNat) (h2 : off.toNat ≤ 0x7FF)
    (h3 : off.toNat % sizeBytes n = 0) :
    hostRead off n s = respond (fbwinValue s (off.toNat - 0x400) (sizeBytes n)) s := by
  have : readValue s off.toNat n = some (fbwinValue s (off.toNat - 0x400) (sizeBytes n)) := by
    unfold readValue; rw [if_pos ⟨h1, by omega⟩, if_pos h3]
  simp [hostRead, this]

/-- A read answers a value and at most records a bad access. -/
theorem hostRead_responds (off : Offset) (n : Size) (s : State) :
    ∃ v, hostRead off n s = respond v s ∨
      hostRead off n s = respond v (raiseFault .badAccess (accessDescriptor false n off) s) := by
  rcases hostRead_eq off n s with ⟨v, -, h⟩ | ⟨-, h⟩
  · exact ⟨v, .inl h⟩
  · exact ⟨0, .inr h⟩

/-- The descriptor's fields as a number (R147). -/
theorem accessDescriptor_toNat (w : Bool) (n : Size) (off : Offset) :
    (accessDescriptor w n off).toNat = descriptorNat w n off := by
  have ho := off.isLt
  have hs := sizeBytes_bounds n
  unfold accessDescriptor descriptorNat
  rw [BitVec.toNat_or, BitVec.toNat_or]
  have hwrite : ((BitVec.ofBool w).setWidth 64 <<< 31).toNat = 2 ^ 31 * (if w then 1 else 0) := by cases w <;> decide
  have hsize : (BitVec.ofNat 64 (sizeBytes n) <<< 16).toNat = 2 ^ 16 * sizeBytes n := by cases n <;> decide
  have hoff : (off.setWidth 64).toNat = off.toNat := by rw [BitVec.toNat_setWidth, Nat.mod_eq_of_lt (by omega)]
  rw [hwrite, hsize, hoff, or_eq_add_of_lt 31 _ rfl (by omega),
    show 2 ^ 31 * (if w = true then 1 else 0) + 2 ^ 16 * sizeBytes n =
      2 ^ 16 * (2 ^ 15 * (if w = true then 1 else 0) + sizeBytes n) by omega, or_eq_add_of_lt 16 _ rfl (by omega)]
  cases w <;> simp <;> omega

theorem getLsbD_cat {m n : Nat} (a : BitVec m) (b : BitVec n) (i : Nat) :
    (a ++ b).getLsbD i = if i < n then b.getLsbD i else a.getLsbD (i - n) := by
  rw [BitVec.getLsbD_append]

/-- Bit i of STATUS, from the lowest field up (10_state.md R29). -/
theorem getLsbD_statusWord (s : State) (i : Nat) :
    (statusWord s).getLsbD i =
      if i < 1 then (BitVec.ofBool (busy s)).getLsbD i
      else if i - 1 < 1 then (BitVec.ofBool s.fault).getLsbD (i - 1)
      else if i - 1 - 1 < 1 then (BitVec.ofBool s.rej).getLsbD (i - 1 - 1)
      else if i - 1 - 1 - 1 < 5 then false
      else if i - 1 - 1 - 1 - 5 < 8 then s.fcause.getLsbD (i - 1 - 1 - 1 - 5)
      else if i - 1 - 1 - 1 - 5 - 8 < 8 then s.cur.getLsbD (i - 1 - 1 - 1 - 5 - 8)
      else s.params.nbuf.getLsbD (i - 1 - 1 - 1 - 5 - 8 - 8) := by
  unfold statusWord; simp only [getLsbD_cat]
  congr; simp

/-- One more step of a run. -/
theorem run_succ {s t : State} (k : Nat) (h : step s = .next t) :
    Host.Core.run Sys2Proof.core (k + 1) s = Host.Core.run Sys2Proof.core k t := by
  simp only [Host.Core.run, show Sys2Proof.core.step s = .next t from h]

end Sys2Proof.Machine
end

