-- ==== Sys2Proof/Tests/Slice0.lean ====
section
/-! SUPPORT. Tests, every expected result from spec/ (95_test_vectors.md rows named SP, RV, RH, CL, FL, FO, CM, BF, CT, DC,
TR, RA, PR; the encoding tables of 30_encoding.md), and one witness for the hypotheses of each statement, its clauses at the
ends of their ranges. -/

namespace Sys2Proof.Tests

open Sys2Proof Sys2Proof.Machine

/-- A small state: a build, the cells the test names, and the reset values for the rest. -/
def small (p : Params) (cells : Memory) : State := { State.resetWith p 0 with cells := cells }

/-- A small state of one buffer with nothing written. -/
def blank : State := small {} []

/-- The state with a fault recorded, as 95_test_vectors.md CT3 starts. -/
def faulted : State := { blank with fault := true, fcause := 5, fcmd := 0x0200FF0800000000 }

/-- The state with `word` committed next. -/
def committing (word : Word64) (s : State) : State :=
  { s with cmdLo := lowHalf word, inputs := [.write 0x014 .word (highHalf word)] }

/-- The next state, if there is one. -/
def nextOf : Answer → Option State
  | .next t => some t
  | .fault _ => none
  | .refused _ => none

/-- What is written at cells of buffer 0, and REJ, after a command. -/
def after (i : Instr) (s : State) (at_ : List (Nat × Nat)) : Option (List (Option Byte) × Bool) :=
  (nextOf (exec i s)).map fun t => (at_.map fun c => memRead t.cells (cellKey 0 c.1 c.2), t.rej)

/-- The fault record, and whether anything was written, after one step. -/
def record (s : State) : Option (Bool × Byte × Word64 × Memory) :=
  (nextOf (step s)).map fun t => (t.fault, t.fcause, t.fcmd, t.cells)

/-- The last value returned and STATUS and FCMD after one read. -/
def afterRead (off : Offset) (n : Size) (s : State) : Option Word32 × Word32 × Word64 :=
  let t := hostRead off n s
  (t.responses.getLast?, statusWord t, t.fcmd)

/-! ## WellFormed: an ill-formed command for each check, and the last good one -/

theorem test_wellFormed_setpix_value : (Instr.setpix 0 0 2).wellFormed 1 = false := by decide
theorem test_wellFormed_setpix_column : (Instr.setpix 128 0 1).wellFormed 1 = false := by decide
theorem test_wellFormed_setpix_row : (Instr.setpix 0 64 1).wellFormed 1 = false := by decide
theorem test_wellFormed_setpix_last : (Instr.setpix 127 63 1).wellFormed 1 = true := by decide
theorem test_wellFormed_runv_count_zero : (Instr.runv 0 0 0xFF 0).wellFormed 1 = false := by decide
theorem test_wellFormed_runv_count_nine : (Instr.runv 0 0 0xFF 9).wellFormed 1 = false := by decide
theorem test_wellFormed_runv_column : (Instr.runv 128 0 0xFF 1).wellFormed 1 = false := by decide
theorem test_wellFormed_runv_bottom : (Instr.runv 0 57 0xFF 8).wellFormed 1 = false := by decide
theorem test_wellFormed_runv_last : (Instr.runv 127 56 0xFF 8).wellFormed 1 = true := by decide
theorem test_wellFormed_runh_count_zero : (Instr.runh 0 0 0xFF 0).wellFormed 1 = false := by decide
theorem test_wellFormed_runh_count_nine : (Instr.runh 0 0 0xFF 9).wellFormed 1 = false := by decide
theorem test_wellFormed_runh_row : (Instr.runh 0 64 0xFF 1).wellFormed 1 = false := by decide
theorem test_wellFormed_runh_right : (Instr.runh 121 0 0xFF 8).wellFormed 1 = false := by decide
theorem test_wellFormed_runh_last : (Instr.runh 120 63 0xFF 8).wellFormed 1 = true := by decide
theorem test_wellFormed_clear_right : (Instr.clear 120 0 20 8).wellFormed 1 = false := by decide
theorem test_wellFormed_clear_bottom : (Instr.clear 0 0 1 65).wellFormed 1 = false := by decide
theorem test_wellFormed_clear_empty_edge : (Instr.clear 128 0 0 64).wellFormed 1 = true := by decide
theorem test_wellFormed_flush_pages : (Instr.flush 0 7 128 2).wellFormed 1 = false := by decide
theorem test_wellFormed_flush_columns : (Instr.flush 127 0 2 1).wellFormed 1 = false := by decide
theorem test_wellFormed_flush_last : (Instr.flush 127 7 1 1).wellFormed 1 = true := by decide
theorem test_wellFormed_bufgoto_at_nbuf : (Instr.bufgoto 3).wellFormed 3 = false := by decide
theorem test_wellFormed_bufgoto_255 : (Instr.bufgoto 255).wellFormed 255 = false := by decide
theorem test_wellFormed_bufgoto_last : (Instr.bufgoto 2).wellFormed 3 = true := by decide

/-! ## Decode: the words of 95_test_vectors.md and of the rules' examples -/

theorem test_decode_nop : decode 0x0000000000000000 = .ok .nop := by rfl
theorem test_decode_setpix : decode 0x01000100050A0000 = .ok (.setpix 5 10 1) := by rfl
theorem test_decode_runv : decode 0x0200FF0409160000 = .ok (.runv 9 22 0xFF 4) := by rfl
theorem test_decode_runh : decode 0x0300FF08783F0000 = .ok (.runh 120 63 0xFF 8) := by rfl
theorem test_decode_clear : decode 0x0400000078001408 = .ok (.clear 120 0 20 8) := by rfl
theorem test_decode_flush : decode 0x100000000E050101 = .ok (.flush 14 5 1 1) := by rfl
theorem test_decode_cmd1 : decode 0x1100AF0000000000 = .ok (.cmd1 0xAF) := by rfl
theorem test_decode_cmd2 : decode 0x1200817F00000000 = .ok (.cmd2 0x81 0x7F) := by rfl
theorem test_decode_bufnext : decode 0x2000000000000000 = .ok .bufnext := by rfl
theorem test_decode_bufprev : decode 0x2100000000000000 = .ok .bufprev := by rfl
theorem test_decode_bufgoto : decode 0x2200FF0000000000 = .ok (.bufgoto 255) := by rfl
theorem test_decode_faultclr : decode 0x3F00000000000000 = .ok .faultclr := by rfl

/-- DC1, DC2, DC4, DC5: the opcode comes before the reserved fields. -/
theorem test_decode_illegal_opcodes :
    decode 0x0500000000000000 = .error .illegalOpcode ∧ decode 0xFFFFFFFFFFFFFFFF = .error .illegalOpcode ∧
      decode 0x4000000000000000 = .error .illegalOpcode ∧ decode 0x3E00000000000000 = .error .illegalOpcode :=
  ⟨rfl, rfl, rfl, rfl⟩

/-- SP9, RV13, CL9, FL7, CM3, BF8, CT2, CT5, DC3: a reserved field of each mask. -/
theorem test_decode_reserved_fields :
    decode 0x0100010100000000 = .error .reservedField ∧ decode 0x0200FF0100000100 = .error .reservedField ∧
      decode 0x0400010000000101 = .error .reservedField ∧ decode 0x1001000000000101 = .error .reservedField ∧
      decode 0x1100AF0001000000 = .error .reservedField ∧ decode 0x2000010000000000 = .error .reservedField ∧
      decode 0x0000000000000001 = .error .reservedField ∧ decode 0x3F00000000000001 = .error .reservedField ∧
      decode 0x0180010000000000 = .error .reservedField := ⟨rfl, rfl, rfl, rfl, rfl, rfl, rfl, rfl, rfl⟩

/-- The words of R75, R77 and RH1, written from the encoding function. -/
theorem test_encode_words :
    encode (.clear 0 0 128 64) = 0x0400000000008040 ∧ encode (.flush 0 0 128 8) = 0x1000000000008008 ∧
      encode (.runh 10 3 0xA0 4) = 0x0300A0040A030000 ∧ encode (.runv 3 6 0x1F 5) = 0x02001F0503060000 := by decide

/-- The host's reading of a table row: CMD2 as one 64-bit word, and an illegal opcode. -/
theorem test_decodeTableWord :
    decodeTableWord 64 0x1200817F00000000 = some (.cmd2 0x81 0x7F) ∧ decodeTableWord 64 0x0500000000000000 = none :=
  ⟨rfl, rfl⟩

/-! ## Pixel commands -/

/-- SP1. -/
theorem test_setpix_sets : after (.setpix 5 10 1) (small {} [(cellKey 0 5 1, 0x00)]) [(5, 1)] =
    some ([some 0x04], false) := by decide
/-- SP2. -/
theorem test_setpix_clears : after (.setpix 5 10 0) (small {} [(cellKey 0 5 1, 0xFF)]) [(5, 1)] =
    some ([some 0xFB], false) := by decide
/-- RV1: the page boundary. -/
theorem test_runv_crosses_page :
    after (.runv 3 6 0x1F 5) (small {} [(cellKey 0 3 0, 0), (cellKey 0 3 1, 0)]) [(3, 0), (3, 1)] =
      some ([some 0xC0, some 0x07], false) := by decide
/-- RV15: bits outside the span are kept. -/
theorem test_runv_keeps_other_bits :
    after (.runv 9 22 0xFF 4) (small {} [(cellKey 0 9 2, 0x81), (cellKey 0 9 3, 0x81)]) [(9, 2), (9, 3)] =
      some ([some 0xC1, some 0x83], false) := by decide
/-- RH1: bit 7 leftmost. -/
theorem test_runh_left_to_right :
    after (.runh 10 3 0xA0 4)
        (small {} [(cellKey 0 10 0, 0), (cellKey 0 11 0, 0), (cellKey 0 12 0, 0), (cellKey 0 13 0, 0)])
        [(10, 0), (11, 0), (12, 0), (13, 0)] =
      some ([some 0x08, some 0x00, some 0x08, some 0x00], false) := by decide
/-- RH3: a count of 1 uses bit 7 only. -/
theorem test_runh_uses_top_bit : after (.runh 0 0 0x01 1) (small {} [(cellKey 0 0 0, 0xFF)]) [(0, 0)] =
    some ([some 0xFE], false) := by decide
/-- CL1: a rectangle that starts mid-page. -/
theorem test_clear_partial_pages :
    after (.clear 0 3 1 10) (small {} [(cellKey 0 0 0, 0xFF), (cellKey 0 0 1, 0xFF), (cellKey 0 0 2, 0xFF)])
      [(0, 0), (0, 1), (0, 2)] = some ([some 0x07, some 0xE0, some 0xFF], false) := by decide
/-- CL3: rejected out of bounds. -/
theorem test_clear_rejected : after (.clear 120 0 20 8) (small {} [(cellKey 0 120 0, 0xFF)]) [(120, 0)] =
    some ([some 0xFF], true) := by decide

/-! ## Transport commands -/

/-- FL1. -/
theorem test_flush_two_columns :
    (nextOf (exec (.flush 4 2 2 1) (small {} [(cellKey 0 4 2, 0x3C), (cellKey 0 5 2, 0x42)]))).map State.oq =
      some [.cmd 0xB2, .cmd 0x04, .cmd 0x10, .data [0x3C, 0x42]] := by decide
/-- FO2: COL_OFFSET 2, RAM column 129. -/
theorem test_flush_column_offset :
    (nextOf (exec (.flush 127 3 1 1) (small { colOffset := 2 } [(cellKey 0 127 3, 0x01)]))).map State.oq =
      some [.cmd 0xB3, .cmd 0x01, .cmd 0x18, .data [0x01]] := by decide
/-- CM1. -/
theorem test_cmd1 : (nextOf (exec (.cmd1 0xAF) blank)).map (fun t => (t.oq, busy t)) = some ([.cmd 0xAF], true) := by
  decide
/-- CM2. -/
theorem test_cmd2 : (nextOf (exec (.cmd2 0x81 0x7F) blank)).map State.oq = some [.cmd 0x81, .cmd 0x7F] := by decide
/-- TR1. -/
theorem test_transport_takes_head :
    let t := transportStep { blank with oq := [.cmd 0xB2, .cmd 0x04, .cmd 0x10, .data [0x3C, 0x42]] }
    t.delivered = [.cmd 0xB2] ∧ t.oq = [.cmd 0x04, .cmd 0x10, .data [0x3C, 0x42]] := by decide

/-! ## Buffer selection and control -/

/-- BF1. -/
theorem test_bufnext_wraps : (nextOf (exec .bufnext { small { nbuf := 3 } [] with cur := 2 })).map State.cur =
    some 0 := by decide
/-- BF2. -/
theorem test_bufprev_wraps : (nextOf (exec .bufprev { small { nbuf := 3 } [] with cur := 0 })).map State.cur =
    some 2 := by decide
/-- BF3. -/
theorem test_bufgoto_selects :
    (nextOf (exec (.bufgoto 1) (small { nbuf := 3 } []))).map (fun t => (t.cur, t.rej)) = some (1, false) := by decide
/-- BF4. -/
theorem test_bufgoto_rejects :
    (nextOf (exec (.bufgoto 3) { small { nbuf := 3 } [] with cur := 1 })).map (fun t => (t.cur, t.rej)) =
      some (1, true) := by decide
/-- CT1. -/
theorem test_nop_clears_rej : (nextOf (exec .nop { blank with rej := true })).map State.rej = some false := by decide
/-- CT3. -/
theorem test_faultclr_clears_record :
    (nextOf (exec .faultclr faulted)).map (fun t => (t.fault, t.fcause, t.fcmd)) = some (false, 0, 0) := by decide

/-! ## Commits and faults, one step each -/

/-- SP5. -/
theorem test_setpix_range_fault :
    record (committing 0x0100010080000000 blank) = some (true, 5, 0x0100010080000000, []) := by decide
/-- SP8: the value before the range. -/
theorem test_setpix_value_first :
    record (committing 0x01000200C8C80000 blank) = some (true, 3, 0x01000200C8C80000, []) := by decide
/-- RV11: the count before the range. -/
theorem test_runv_count_first :
    record (committing 0x0200FF0980460000 blank) = some (true, 4, 0x0200FF0980460000, []) := by decide
/-- RH5. -/
theorem test_runh_range_fault :
    record (committing 0x0300FF0879000000 blank) = some (true, 5, 0x0300FF0879000000, []) := by decide
/-- PR4: a reserved field before the command's own checks. -/
theorem test_reserved_first :
    record (committing 0x01800200C8C80000 blank) = some (true, 2, 0x01800200C8C80000, []) := by decide
/-- PR2: OVERRUN before decode. -/
theorem test_overrun_first :
    record (committing 0x0500000000000000 { blank with oq := [.cmd 0xAF] }) =
      some (true, 6, 0x0500000000000000, []) := by decide
/-- CT4: discarded while faulted. -/
theorem test_discarded_while_faulted :
    record (committing 0x0100010000000000 faulted) = some (true, 5, 0x0200FF0800000000, []) := by decide
/-- CT5: a FAULTCLR with a reserved bit keeps the first record. -/
theorem test_bad_faultclr_keeps_record :
    record (committing 0x3F00000000000001 faulted) = some (true, 5, 0x0200FF0800000000, []) := by decide
/-- PR7: a FAULTCLR while BUSY and faulted. -/
theorem test_busy_faultclr_keeps_record :
    record (committing 0x3F00000000000000 { faulted with oq := [.cmd 0xAF] }) =
      some (true, 5, 0x0200FF0800000000, []) := by decide
/-- DC1. -/
theorem test_illegal_opcode_recorded :
    record (committing 0x0500000000000000 blank) = some (true, 1, 0x0500000000000000, []) := by decide

/-! ## The register window -/

/-- The cells of RA3. -/
def ra3 : State := small {} [(0, 0x11), (1, 0x22), (2, 0x33), (3, 0x44)]

/-- RA1. -/
theorem test_read_status : afterRead 0x000 .word blank = (some 0x01000000, 0x01000000, 0) := by decide
/-- RA2. -/
theorem test_read_status_fields :
    afterRead 0x000 .word { small { nbuf := 2 } [] with cur := 1, rej := true } =
      (some 0x02010004, 0x02010004, 0) := by decide
/-- RA3. -/
theorem test_read_window_word : afterRead 0x400 .word ra3 = (some 0x44332211, 0x01000000, 0) := by decide
/-- RA3b. -/
theorem test_read_window_half : afterRead 0x402 .half ra3 = (some 0x00004433, 0x01000000, 0) := by decide
/-- RA4: page-major. -/
theorem test_read_window_page :
    afterRead 0x485 .byte (small {} [(cellKey 0 5 1, 0x9C)]) = (some 0x0000009C, 0x01000000, 0) := by decide
/-- RA5: misaligned. -/
theorem test_read_misaligned : afterRead 0x401 .half blank = (some 0, 0x01000702, 0x0000000000020401) := by decide
/-- RA7: reserved. -/
theorem test_read_reserved : afterRead 0x00C .word blank = (some 0, 0x01000702, 0x000000000004000C) := by decide
/-- RA9: wrong width. -/
theorem test_read_wrong_width : afterRead 0x000 .byte blank = (some 0, 0x01000702, 0x0000000000010000) := by decide
/-- RA15. -/
theorem test_read_fault_record :
    afterRead 0x004 .word { faulted with fcmd := 0x0200FF0800390000 } =
        (some 0x00390000, 0x01000502, 0x0200FF0800390000) ∧
      afterRead 0x008 .word { faulted with fcmd := 0x0200FF0800390000 } =
        (some 0x0200FF08, 0x01000502, 0x0200FF0800390000) := by decide
/-- RA6, RA10, RA11: writes that are bad accesses. -/
theorem test_bad_writes_recorded :
    (nextOf (hostWrite 0x400 .byte 0x12 blank)).map State.fcmd = some 0x0000000080010400 ∧
      (nextOf (hostWrite 0x000 .word 0xFFFFFFFF blank)).map State.fcmd = some 0x0000000080040000 ∧
      (nextOf (hostWrite 0x014 .half 0 blank)).map State.fcmd = some 0x0000000080020014 := by decide
/-- RA18. -/
theorem test_write_cmd_lo : (nextOf (hostWrite 0x010 .word 0x050A0000 blank)).map State.cmdLo = some 0x050A0000 := by
  decide
/-- 20_memory.md R44: an address of the platform and its offset; one past the window has none. -/
theorem test_windowOffset :
    windowOffset { windowBase := 0x40000000 } 0x40000014 = some 0x014 ∧
      windowOffset { windowBase := 0x40000000 } 0x40001000 = none := by decide

/-! ## The state after reset -/

theorem test_reset_memory_wf : Memory.wf State.reset.cells := by decide
theorem test_reset_status : statusWord State.reset = 0x01000000 := by decide
theorem test_withFetchWord_runs :
    (nextOf (step (State.reset.withFetchWord 64 0x1100AF0000000000))).map (fun t => (t.oq, t.inputs)) =
      some ([.cmd 0xAF], []) := by decide

/-! ## Witnesses: states and operands that meet the hypotheses of the statements -/

/-- A state about to serve SETPIX 5, 10, 1 with two buffers, buffer 1 selected. -/
def drawing : State :=
  committing 0x01000100050A0000 { small { nbuf := 2 } [(cellKey 1 5 1, 0x00)] with cur := 1 }

/-- A state with two transactions queued and a read to come. -/
def queued : State :=
  { blank with oq := [.cmd 0xAF, .data [0x3C]], inputs := [.read 0x000 .word, .transport] }

theorem drawing_commits : Committing drawing 0x01000100050A0000 [] := ⟨_, rfl, by decide⟩

theorem witness_EncodeOfDecodeIsTheWord : decode 0x2200FF0000000000 = .ok (.bufgoto 255) := rfl
theorem witness_ExecutorSortsEveryWord :
    (∀ r ∈ reservedRows, r.1 ≠ opField 0xFF00000000000000) ∧
    ((0x3F, 0x00FFFFFFFFFFFFFF) ∈ reservedRows ∧ (0x3F : Byte) = opField 0x3F00000000000001 ∧
      (0x3F00000000000001 : Word64) &&& 0x00FFFFFFFFFFFFFF ≠ 0) ∧
    ((0x00, 0x00FFFFFFFFFFFFFF) ∈ reservedRows ∧ (0x00 : Byte) = opField 0 ∧
      (0 : Word64) &&& 0x00FFFFFFFFFFFFFF = 0) :=
  ⟨by simp [reservedRows, opField], ⟨by simp [reservedRows], by decide, by decide⟩,
    by simp [reservedRows], by decide, by decide⟩
theorem witness_StepRunsTheDecodedCommand :
    Committing drawing 0x01000100050A0000 [] ∧ drawing.oq = [] ∧
      (drawing.fault = true → opField 0x01000100050A0000 = 0x3F) ∧
      decode 0x01000100050A0000 = .ok (.setpix 5 10 1) := ⟨drawing_commits, rfl, by decide, rfl⟩
theorem witness_CommitDiscardsOverrunsOrExecutes :
    (Committing (committing 0x0100010000000000 faulted) 0x0100010000000000 [] ∧ faulted.fault = true ∧
      opField 0x0100010000000000 ≠ 0x3F) ∧
    (Committing (committing 0 { blank with oq := [.cmd 0xAF] }) 0 [] ∧ blank.fault = false) ∧
    (Committing drawing 0x01000100050A0000 [] ∧ drawing.oq = [] ∧ drawing.fault = false) :=
  ⟨⟨⟨_, rfl, by decide⟩, rfl, by decide⟩, ⟨⟨_, rfl, by decide⟩, rfl⟩, drawing_commits, rfl, rfl⟩
theorem witness_UnservedFaultclrKeepsTheRecord :
    (Committing (committing 0x3F00000000000001 faulted) 0x3F00000000000001 [] ∧ faulted.fault = true ∧
      opField 0x3F00000000000001 = 0x3F ∧ (0x3F00000000000001 : Word64) ≠ 0x3F00000000000000) ∧
    (Committing (committing 0x3F00000000000000 { faulted with oq := [.cmd 0] }) 0x3F00000000000000 [] ∧
      opField 0x3F00000000000000 = 0x3F ∧ ({ faulted with oq := [.cmd 0] } : State).oq ≠ []) :=
  ⟨⟨⟨_, rfl, by decide⟩, rfl, by decide, by decide⟩, ⟨_, rfl, by decide⟩, by decide, by decide⟩
theorem witness_StepServesTheFirstInput :
    queued.inputs = .read 0x000 .word :: [.transport] ∧ drawing.inputs = .write 0x014 .word 0x01000100 :: [] ∧
      ({ queued with inputs := [.transport] } : State).inputs = .transport :: [] ∧
      ({ queued with inputs := [.reset] } : State).inputs = .reset :: [] ∧ blank.inputs = [] := by decide
theorem witness_PlacedWordRunsNext : clearFault faulted = blank ∧ blank.fault = false ∧ blank.oq = [] := by decide
theorem witness_FaultEntryKeepsTheFirstRecord :
    blank.fault = false ∧ faulted.fault = true ∧
      (∃ t, hostWrite 0x000 .word 0 blank = .next t ∧ t.fault = true) ∧ (hostRead 0x00C .word blank).fault = true :=
  ⟨rfl, rfl, ⟨_, rfl, rfl⟩, rfl⟩
theorem witness_FaultRecordStaysUntilCleared :
    faulted.fault = true ∧ (∃ t, step (committing 0x3F00000000000000 faulted) = .next t ∧ t.fault = false) ∧
      (∃ t, step (committing 0x0100010000000000 faulted) = .next t ∧ t.fault = true) :=
  ⟨rfl, ⟨_, rfl, rfl⟩, ⟨_, rfl, rfl⟩⟩
theorem witness_FaultsArePrecise :
    ∃ t, step { blank with inputs := [.read 0x800 .byte] } = .next t ∧ blank.fault = false ∧ t.fault = true :=
  ⟨_, rfl, rfl, rfl⟩
theorem witness_WellFormedCommandsArePerformed :
    (Instr.bufgoto 0).wellFormed blank.params.nbuf = true ∧ (Instr.bufgoto 1).wellFormed blank.params.nbuf = false := by
  decide
theorem witness_SetpixWritesOnePixel :
    ((1 : Byte).toNat ≤ 1 ∧ (127 : Byte).toNat < 128 ∧ (63 : Byte).toNat < 64) ∧ (2 : Byte).toNat > 1 ∧
      ((0 : Byte).toNat ≤ 1 ∧ ((128 : Byte).toNat ≥ 128 ∨ (63 : Byte).toNat ≥ 64)) := by decide
theorem witness_RunvWritesTheColumnSpan :
    (1 ≤ (8 : Byte).toNat ∧ (8 : Byte).toNat ≤ 8 ∧ (127 : Byte).toNat < 128 ∧
      (56 : Byte).toNat + (8 : Byte).toNat ≤ 64) ∧
    ((0 : Byte).toNat < 1 ∨ (0 : Byte).toNat > 8) ∧ ((9 : Byte).toNat < 1 ∨ (9 : Byte).toNat > 8) ∧
    (1 ≤ (8 : Byte).toNat ∧ (127 : Byte).toNat < 128 ∧ (57 : Byte).toNat + (8 : Byte).toNat > 64) := by decide
theorem witness_RunhWritesTheRowSpan :
    (1 ≤ (8 : Byte).toNat ∧ (8 : Byte).toNat ≤ 8 ∧ (63 : Byte).toNat < 64 ∧
      (120 : Byte).toNat + (8 : Byte).toNat ≤ 128) ∧
    ((0 : Byte).toNat < 1 ∨ (0 : Byte).toNat > 8) ∧ ((9 : Byte).toNat < 1 ∨ (9 : Byte).toNat > 8) ∧
    (1 ≤ (8 : Byte).toNat ∧ (63 : Byte).toNat < 64 ∧ (121 : Byte).toNat + (8 : Byte).toNat > 128) := by decide
theorem witness_ClearZeroesTheRectangle :
    ((0 : Byte).toNat + (128 : Byte).toNat ≤ 128 ∧ (0 : Byte).toNat + (64 : Byte).toNat ≤ 64) ∧
      ((128 : Byte).toNat + (1 : Byte).toNat > 128 ∨ (0 : Byte).toNat + (64 : Byte).toNat > 64) := by decide
theorem witness_RunvEqualsItsPixels :
    1 ≤ (5 : Byte).toNat ∧ (5 : Byte).toNat ≤ 8 ∧ (3 : Byte).toNat < 128 ∧ (6 : Byte).toNat + (5 : Byte).toNat ≤ 64 := by
  decide
theorem witness_RunhEqualsItsPixels :
    1 ≤ (8 : Byte).toNat ∧ (8 : Byte).toNat ≤ 8 ∧ (63 : Byte).toNat < 64 ∧
      (120 : Byte).toNat + (8 : Byte).toNat ≤ 128 := by decide
theorem witness_SetThenClearRestoresAClearPixel :
    (127 : Byte).toNat < 128 ∧ (63 : Byte).toNat < 64 ∧
      pixel (small {} [(cellKey 0 7 0, 0x5A)]) 0 7 0 = false ∧ pixel (small {} [(cellKey 0 7 0, 0x5A)]) 0 7 1 = true := by
  decide
theorem witness_ClearAllReadsBackZero :
    (∃ t, exec (.clear 0 0 128 64) blank = .next t) ∧ 0x400 ≤ (0x7FC : Offset).toNat ∧ (0x7FC : Offset).toNat ≤ 0x7FF ∧
      (0x7FC : Offset).toNat % sizeBytes .word = 0 := ⟨⟨_, rfl⟩, by decide⟩
theorem witness_FlushQueuesTheRegion :
    ((127 : Byte).toNat + (1 : Byte).toNat ≤ 128 ∧ (7 : Byte).toNat + (1 : Byte).toNat ≤ 8) ∧ blank.oq = [] ∧
      ((0 : Byte).toNat + (128 : Byte).toNat > 128 ∨ (7 : Byte).toNat + (2 : Byte).toNat > 8) := by decide
theorem witness_CursorCommandsByDefault : blank.params.cursorTable = [] ∧ 7 < 8 ∧ 127 < 128 := by decide
theorem witness_FullFlushSendsTheWindow : (∃ t, exec (.flush 0 0 128 8) blank = .next t) ∧ 1023 < 1024 :=
  ⟨⟨_, rfl⟩, by decide⟩
theorem witness_OnlyTransportCommandsSetBusy :
    blank.oq = [] ∧ (∃ t, exec (.cmd1 0) blank = .next t ∧ busy t = true) ∧
      (∃ t, exec (.flush 128 8 0 0) blank = .next t ∧ busy t = false) := ⟨rfl, ⟨_, rfl, rfl⟩, ⟨_, rfl, rfl⟩⟩
theorem witness_TransportDeliversTheHead :
    ({ queued with inputs := [.transport] } : State).inputs = .transport :: [] ∧
      queued.oq = .cmd 0xAF :: [.data [0x3C]] ∧ ({ blank with inputs := [.transport] } : State).oq = [] := by decide
theorem witness_QueueDrainsInOrder : ({ queued with inputs := [] } : State).inputs = [] ∧ queued.oq ≠ [] := by decide
theorem witness_EveryTransactionIsDelivered : (∀ e ∈ queued.inputs, e ≠ .reset) ∧ queued.oq ≠ [] := by decide
theorem witness_StreamOnlyGrows :
    (∃ t, step (committing 0x1100AF0000000000 blank) = .next t ∧ t.oq ≠ []) ∧
      ∀ rest, (committing 0x1100AF0000000000 blank).inputs ≠ .reset :: rest :=
  ⟨⟨_, rfl, by decide⟩, fun _ h => by cases h⟩
theorem witness_NothingIsDrawnWhileBusy :
    queued.oq ≠ [] ∧ (∃ t, step queued = .next t) ∧ ∀ rest, queued.inputs ≠ .reset :: rest :=
  ⟨by decide, ⟨_, rfl⟩, fun _ h => by cases h⟩
theorem witness_ReferenceSinkShowsTheRegion :
    blank.params.cursorTable = [] ∧ blank.oq = [] ∧ (Sink.mk [] 0 0 false).awaiting = false ∧
      ((127 : Byte).toNat + (1 : Byte).toNat ≤ 128 ∧ (7 : Byte).toNat + (1 : Byte).toNat ≤ 8) ∧
      (∃ t, exec (.flush 127 7 1 1) blank = .next t) ∧
      ((7 : Byte).toNat ≤ 7 ∧ 7 < (7 : Byte).toNat + (1 : Byte).toNat ∧ (127 : Byte).toNat ≤ 127 ∧
        127 < (127 : Byte).toNat + (1 : Byte).toNat) :=
  ⟨rfl, rfl, rfl, by decide, ⟨_, rfl⟩, by decide⟩
theorem witness_BufferNextAndPreviousWrap :
    (blank.cur.toNat < blank.params.nbuf.toNat ∧ blank.cur.toNat + 1 = blank.params.nbuf.toNat) ∧
      ({ small { nbuf := 255 } [] with cur := 254 } : State).cur.toNat < (255 : Byte).toNat := by decide
theorem witness_BufferNextAndPreviousUndo : drawing.cur.toNat < drawing.params.nbuf.toNat := by decide
theorem witness_BufferGotoSelectsOrRejects :
    (2 : Byte).toNat ≥ drawing.params.nbuf.toNat ∧ (1 : Byte).toNat < drawing.params.nbuf.toNat := by decide
theorem witness_NonDrawingCommandsFrame :
    (∃ t, exec (.bufgoto 0) drawing = .next t) ∧ (∀ x y v, Instr.bufgoto 0 ≠ .setpix x y v) ∧
      (∀ x y p c, Instr.bufgoto 0 ≠ .runv x y p c) ∧ (∀ x y p c, Instr.bufgoto 0 ≠ .runh x y p c) ∧
      (∀ x y w h, Instr.bufgoto 0 ≠ .clear x y w h) ∧ Instr.bufgoto 0 ≠ .faultclr := by
  refine ⟨⟨_, rfl⟩, ?_⟩; simp
theorem witness_StoreWrittenOnlyByDrawing : ∃ t, step drawing = .next t ∧ ¬ SameStore drawing t :=
  ⟨_, rfl, fun h => absurd (h (cellKey 1 5 1)) (by decide)⟩
theorem witness_CurWrittenOnlyByBufferCommands :
    ∃ t, step (committing 0x2000000000000000 { drawing with inputs := [] }) = .next t ∧ t.cur ≠ drawing.cur :=
  ⟨_, rfl, by decide⟩
theorem witness_RejWrittenOnlyByPerformedCommands :
    ∃ t, step (committing 0x2200FF0000000000 blank) = .next t ∧ t.rej ≠ blank.rej := ⟨_, rfl, by decide⟩
theorem witness_OtherBuffersAreUntouched :
    (∃ t, exec (.setpix 127 63 1) drawing = .next t) ∧ 0 ≠ drawing.cur.toNat ∧ 127 < 128 ∧ 7 < 8 :=
  ⟨⟨_, rfl⟩, by decide⟩
theorem witness_OtherBuffersAreNotRead :
    ∃ s' : State, s'.cells ≠ drawing.cells ∧
      s' = { drawing with cells := s'.cells, powerOn := s'.powerOn } ∧
      (∀ c p, c < 128 → p < 8 → cell s' drawing.cur.toNat c p = cell drawing drawing.cur.toNat c p) ∧
      (∃ t, exec (.setpix 5 10 1) drawing = .next t) ∧ ∃ t, exec (.setpix 5 10 1) s' = .next t := by
  refine ⟨{ drawing with cells := memWrite drawing.cells 0 0x7E }, by decide, rfl, ?_, ⟨_, rfl⟩, ⟨_, rfl⟩⟩
  intro c p _ _
  have h : cellKey drawing.cur.toNat c p ≠ 0 := by simp [cellKey, show drawing.cur.toNat = 1 from rfl]
  simp only [cell, byteAt, memRead_memWrite_other _ _ h]
theorem witness_StatusReadsItsFields : ∃ t, step queued = .next t := ⟨_, rfl⟩
theorem witness_WindowReadsTheCurrentBuffer :
    (1020 + sizeBytes .word ≤ 1024 ∧ 1020 % sizeBytes .word = 0) ∧
      (1023 + sizeBytes .byte ≤ 1024 ∧ 1023 % sizeBytes .byte = 0) ∧
      (SameStore blank faulted ∧ faulted.cur = blank.cur) := ⟨by decide, by decide, fun _ => rfl, rfl⟩
theorem witness_WideReadsAreByteReads :
    0x400 ≤ (0x7FC : Offset).toNat ∧ (0x7FC : Offset).toNat ≤ 0x7FF ∧ (0x7FC : Offset).toNat % sizeBytes .word = 0 ∧
      3 < sizeBytes .word := by decide
theorem witness_BadAccessesAreRecorded :
    (¬ ReadServed 0x00C .word ∧ ¬ ReadServed 0x800 .byte ∧ ¬ ReadServed 0x401 .half ∧ ¬ ReadServed 0x014 .half) ∧
      (¬ WriteServed 0x400 .byte ∧ ¬ WriteServed 0x014 .half ∧ ¬ WriteServed 0xFFF .byte) := by decide
theorem witness_ResetValues :
    (∃ v, step queued = .next v ∧ memRead v.cells 0 = none) ∧ (∀ rest, queued.inputs ≠ .reset :: rest) ∧
      queued.powerOn = 0 := ⟨⟨_, rfl, rfl⟩, fun _ h => (by cases h), rfl⟩
theorem witness_ResetInputResetsTheBlock : ({ queued with inputs := [.reset] } : State).inputs = .reset :: [] := rfl
theorem witness_InvariantAtReset : LegalBuild { nbuf := 1 } ∧ LegalBuild { nbuf := 255 } := by decide
theorem witness_InvariantKeptByEveryStep : queued.Inv ∧ ∃ t, step queued = .next t :=
  ⟨⟨by decide, by decide, by decide, by decide, ⟨fun _ => by decide, fun h => by cases h⟩, by decide, by decide⟩,
    ⟨_, rfl⟩⟩

end Sys2Proof.Tests
end

section
/-! PROOF. CURSOR_CMDS (00_scope.md R13) is never empty, and the default of D16 as numbers: a page below 16
and a moved column below 256 fit their fields, so the bit operations of the three bytes are a sum, a remainder and a
quotient. -/

namespace Sys2Proof.Machine

/-! ## A build's own bytes and the default -/

theorem cursorCmds_of_find?_some {p : Params} {page col : Nat} {e : CursorEntry}
    (h : p.cursorTable.find? (fun e => e.page = page ∧ e.col = col) = some e) :
    cursorCmds p page col = e.first :: e.rest := by
  simp only [cursorCmds, h]

theorem cursorCmds_of_find?_none {p : Params} {page col : Nat}
    (h : p.cursorTable.find? (fun e => e.page = page ∧ e.col = col) = none) :
    cursorCmds p page col = defaultCursorCmds p.colOffset.val page col := by
  simp only [cursorCmds, h]

theorem cursorCmds_of_table_nil {p : Params} (h : p.cursorTable = []) (page col : Nat) :
    cursorCmds p page col = defaultCursorCmds p.colOffset.val page col :=
  cursorCmds_of_find?_none (by rw [h, List.find?_nil])

theorem cursorCmds_ne_nil (p : Params) (page col : Nat) : cursorCmds p page col ≠ [] := by
  cases h : p.cursorTable.find? (fun e => e.page = page ∧ e.col = col) with
  | some e => simp [cursorCmds_of_find?_some h]
  | none => simp [cursorCmds_of_find?_none h, defaultCursorCmds]

/-! ## The bytes of the default as numbers -/

theorem ofNat_toNat_of_lt {n : Nat} (h : n < 256) : (BitVec.ofNat 8 n).toNat = n := by
  rw [BitVec.toNat_ofNat, Nat.mod_eq_of_lt h]

theorem setPageByte_toNat {page : Nat} (h : page < 16) :
    ((0xB0 : Byte) ||| BitVec.ofNat 8 page).toNat = 0xB0 + page := by
  rw [BitVec.toNat_or, ofNat_toNat_of_lt (by omega)]
  exact or_eq_add_of_lt 4 11 rfl h

theorem lowerColumnByte_toNat {c : Nat} (h : c < 256) : (BitVec.ofNat 8 c &&& 0x0F).toNat = c % 16 := by
  rw [BitVec.toNat_and, ofNat_toNat_of_lt h]
  exact Nat.and_two_pow_sub_one_eq_mod c 4

theorem higherColumnByte_toNat {c : Nat} (h : c < 256) :
    ((0x10 : Byte) ||| (BitVec.ofNat 8 c >>> 4)).toNat = 0x10 + c / 16 := by
  rw [BitVec.toNat_or, BitVec.toNat_ushiftRight, ofNat_toNat_of_lt h, Nat.shiftRight_eq_div_pow]
  exact or_eq_add_of_lt 4 1 rfl (by omega)

/-- The default of D16 as numbers, wherever the page fits a nibble and the moved column a byte. -/
theorem defaultCursorCmds_toNat {offset page col : Nat} (hpage : page < 16) (hcol : col + offset < 256) :
    (defaultCursorCmds offset page col).map BitVec.toNat =
      [0xB0 + page, (col + offset) % 16, 0x10 + (col + offset) / 16] := by
  simp only [defaultCursorCmds, List.map_cons, List.map_nil, setPageByte_toNat hpage, lowerColumnByte_toNat hcol,
    higherColumnByte_toNat hcol]

/-- Settles O24: every branch of `cursorCmds` has a first byte, and with an empty table the branch is the default, whose
moved column is at most 127 + 4. -/
theorem cursorCommandsByDefault : Obligations.CursorCommandsByDefault := by
  intro p
  refine ⟨cursorCmds_ne_nil p, fun htable page hpage col hcol => ?_⟩
  have hoffset : p.colOffset.val < 5 := p.colOffset.isLt
  rw [cursorCmds_of_table_nil htable]
  exact defaultCursorCmds_toNat (by omega) (by omega)

end Sys2Proof.Machine
end

section
/-! PROOF. What a step does to each field of the block: the frame of a command by its outcome, the three kinds of step
(`StepKind`: reset, a performed command, anything else), and the invariant at reset and after every step
(10_state.md R20, R24, R27, R34). -/

namespace Sys2Proof.Machine

/-! ## The fault record -/

/-- The record after an operation that clears no fault: it stays as it was, or a first fault is recorded (R151). -/
def RecordKeptOrRaised (s t : State) : Prop :=
  (t.fault = s.fault ∧ t.fcause = s.fcause ∧ t.fcmd = s.fcmd) ∨
    (s.fault = false ∧ t.fault = true ∧ ∃ c, t.fcause = causeCode c)

theorem recordKeptOrRaised_raiseFault (c : Cause) (w : Word64) (s : State) :
    RecordKeptOrRaised s (raiseFault c w s) := by
  cases hf : s.fault with
  | true => exact .inl (by simp [raiseFault_of_fault hf])
  | false => exact .inr ⟨hf, raiseFault_fault c w s, c, by rw [raiseFault_of_no_fault hf]⟩

theorem RecordKeptOrRaised.trans {s t u : State} (hst : RecordKeptOrRaised s t) (htu : RecordKeptOrRaised t u) :
    RecordKeptOrRaised s u := by
  obtain ⟨hf, hc, hw⟩ | ⟨hf, ht, c, hc⟩ := hst
  · obtain ⟨hf', hc', hw'⟩ | ⟨hf', hu, c', hc'⟩ := htu
    · exact .inl ⟨hf'.trans hf, hc'.trans hc, hw'.trans hw⟩
    · exact .inr ⟨hf ▸ hf', hu, c', hc'⟩
  · obtain ⟨hf', hc', -⟩ | ⟨hf', -⟩ := htu
    · exact .inr ⟨hf, hf'.trans ht, c, hc'.trans hc⟩
    · rw [ht] at hf'; cases hf'

theorem RecordKeptOrRaised.of_fault {s t : State} (h : RecordKeptOrRaised s t) (hs : s.fault = true) :
    t.fault = true ∧ t.fcause = s.fcause ∧ t.fcmd = s.fcmd := by
  obtain ⟨hf, hc, hw⟩ | ⟨hf, -, -⟩ := h
  · exact ⟨hf.trans hs, hc, hw⟩
  · rw [hs] at hf; cases hf

theorem RecordKeptOrRaised.recordAgrees {s t : State} (h : RecordKeptOrRaised s t) (hs : RecordAgrees s) :
    RecordAgrees t := by
  obtain ⟨hf, hc, hw⟩ | ⟨-, ht, hc⟩ := h
  · simpa only [RecordAgrees, hf, hc, hw] using hs
  · exact ⟨fun hf => absurd ht (by simp [hf]), fun _ => hc⟩

/-! ## Lists with no empty burst (R20) -/

theorem burstsNonempty_nil : BurstsNonempty [] := fun _ h => absurd h List.not_mem_nil

theorem burstsNonempty_append {l m : List Transaction} :
    BurstsNonempty (l ++ m) ↔ BurstsNonempty l ∧ BurstsNonempty m := by
  simp only [BurstsNonempty, List.mem_append, or_imp, forall_and]

/-! ## The frame of a command -/

section
variable {i : Instr} {s t : State}

theorem ExecOutcome.params (h : ExecOutcome i s t) : t.params = s.params := by cases h <;> simp
theorem ExecOutcome.powerOn (h : ExecOutcome i s t) : t.powerOn = s.powerOn := by cases h <;> simp
theorem ExecOutcome.cmdLo (h : ExecOutcome i s t) : t.cmdLo = s.cmdLo := by cases h <;> simp
theorem ExecOutcome.delivered (h : ExecOutcome i s t) : t.delivered = s.delivered := by cases h <;> simp

/-- Whatever a command does to the store, it writes cells of buffer CUR (R26). -/
theorem ExecOutcome.wroteCur (h : ExecOutcome i s t) : WroteCur s t.cells := by
  cases h with
  | drew m _ _ hm => exact hm
  | faulted c => rw [raiseFault_cells]; exact WroteCur.refl s
  | rejected | queued | selected | nothing | cleared => exact WroteCur.refl s

theorem ExecOutcome.cells_of_not_draws (h : ExecOutcome i s t) (hi : ¬ Draws i) : t.cells = s.cells := by
  cases h with
  | drew m _ hd => exact absurd hd hi
  | faulted c _ hd => exact absurd hd hi
  | rejected | queued | selected | nothing | cleared => rfl

theorem ExecOutcome.cur_of_not_selects (h : ExecOutcome i s t) (hi : ¬ Selects i) : t.cur = s.cur := by
  cases h with
  | selected n _ hsel => exact absurd hsel hi
  | faulted c => exact raiseFault_cur ..
  | rejected | drew | queued | nothing | cleared => rfl

/-- A command leaves CUR below NBUF (R27). -/
theorem ExecOutcome.cur_lt (h : ExecOutcome i s t) (hs : s.cur.toNat < s.params.nbuf.toNat) :
    t.cur.toNat < s.params.nbuf.toNat := by
  cases h with
  | selected n _ _ hn =>
    have hlt := hn (by omega)
    have hbyte := s.params.nbuf.isLt
    rw [BitVec.toNat_ofNat, Nat.mod_eq_of_lt (by omega)]
    exact hlt
  | faulted c => rwa [raiseFault_cur]
  | rejected | drew | queued | nothing | cleared => exact hs

/-- A command appends to OQ, no empty burst, and nothing unless it is FLUSH, CMD1 or CMD2 (R39, R20). -/
theorem ExecOutcome.oq (h : ExecOutcome i s t) :
    ∃ new, t.oq = s.oq ++ new ∧ BurstsNonempty new ∧ (new ≠ [] → Queues i) := by
  cases h with
  | queued l _ hq hl => exact ⟨l, rfl, hl, fun _ => hq⟩
  | faulted c => exact ⟨[], by simp, burstsNonempty_nil, by simp⟩
  | rejected | drew | selected | nothing | cleared => exact ⟨[], by simp, burstsNonempty_nil, by simp⟩

/-- REJ is 0 after a well-formed command, and otherwise 1 or as it was (R32). -/
theorem ExecOutcome.rej_eq (h : ExecOutcome i s t) (hne : t.rej ≠ s.rej) :
    i.wellFormed s.params.nbuf = true ∨ t.rej = true := by
  cases h with
  | rejected => exact .inr rfl
  | faulted c => exact absurd (raiseFault_rej ..) hne
  | drew m hw => exact .inl hw
  | queued l hw => exact .inl hw
  | selected n hw => exact .inl hw
  | nothing hi => exact .inl (by rw [hi]; rfl)
  | cleared hi => exact .inl (by rw [hi]; rfl)

theorem ExecOutcome.recordAgrees (h : ExecOutcome i s t) (hs : RecordAgrees s) : RecordAgrees t := by
  cases h with
  | faulted c => exact (recordKeptOrRaised_raiseFault ..).recordAgrees hs
  | cleared => exact ⟨fun _ => ⟨rfl, rfl⟩, fun h => by cases h⟩
  | rejected | drew | queued | selected | nothing => exact hs

end

/-! ## FAULTCLR, the one word served while faulted -/

theorem decode_of_opField_faultclr {w : Word64} (h : opField w = 0x3F) :
    decode w = decodeRow zeroNone w .faultclr := by
  simp [decode, h]

/-- OP 0x3F decodes to FAULTCLR or not at all (R69, R144). -/
theorem eq_faultclr_of_decode {w : Word64} {i : Instr} (hop : opField w = 0x3F) (h : decode w = .ok i) :
    i = .faultclr := by
  rw [decode_of_opField_faultclr hop] at h
  exact (decodeRow_ok h).2.symm

/-- FAULTCLR has one word (R70, R142). -/
theorem eq_of_decode_faultclr {w : Word64} {i : Instr} (hop : opField w = 0x3F) (h : decode w = .ok i) :
    w = 0x3F00000000000000 := by
  rw [decode_of_opField_faultclr hop] at h
  obtain ⟨-, hr, hd, hc, hx, hy, hw, hh⟩ := (and_eq_zero_iff ..).1 (decodeRow_ok h).1
  have allOnes : ∀ b : Byte, b &&& 0xFF = 0 → b = 0 := fun b hb => by
    rwa [show (0xFF : Byte) = BitVec.allOnes 8 from rfl, BitVec.and_allOnes] at hb
  rw [← enc_fields (allOnes _ hr), hop, allOnes _ hd, allOnes _ hc, allOnes _ hx, allOnes _ hy, allOnes _ hw,
    allOnes _ hh]
  rfl

/-! ## The three kinds of step -/

/-- The next input makes the Executor perform `i` (R38): it commits `w`, which decodes to `i`, nothing is queued, and the
block is not faulted or OP is 0x3F. -/
structure Performs (s : State) (w : Word64) (rest : List Input) (i : Instr) : Prop where
  committing : Committing s w rest
  served : s.fault = true → opField w = 0x3F
  idle : s.oq = []
  decoded : decode w = .ok i

theorem Performs.eq_faultclr {s : State} {w : Word64} {rest : List Input} {i : Instr} (h : Performs s w rest i)
    (hf : s.fault = true) : i = .faultclr :=
  eq_faultclr_of_decode (h.served hf) h.decoded

theorem Performs.not_faulted {s : State} {w : Word64} {rest : List Input} {i : Instr} (h : Performs s w rest i)
    (hi : i ≠ .faultclr) : s.fault = false :=
  Bool.eq_false_iff.2 fun hf => hi (h.eq_faultclr hf)

/-- What every step keeps that neither resets the block nor performs a command. -/
structure KeepsBlock (s t : State) : Prop where
  params : t.params = s.params
  cells : t.cells = s.cells
  powerOn : t.powerOn = s.powerOn
  cur : t.cur = s.cur
  rej : t.rej = s.rej
  /-- A transaction may be delivered, which leaves the stream and the queue together as they are. -/
  stream : t.delivered ++ t.oq = s.delivered ++ s.oq
  record : RecordKeptOrRaised s t

theorem KeepsBlock.trans {s t u : State} (h : KeepsBlock s t) (h' : KeepsBlock t u) : KeepsBlock s u where
  params := h'.params.trans h.params
  cells := h'.cells.trans h.cells
  powerOn := h'.powerOn.trans h.powerOn
  cur := h'.cur.trans h.cur
  rej := h'.rej.trans h.rej
  stream := h'.stream.trans h.stream
  record := h.record.trans h'.record

theorem keepsBlock_setInputs (l : List Input) (s : State) : KeepsBlock s (setInputs l s) :=
  ⟨rfl, rfl, rfl, rfl, rfl, rfl, .inl ⟨rfl, rfl, rfl⟩⟩

theorem keepsBlock_stageLow (v : Word32) (s : State) : KeepsBlock s (stageLow v s) :=
  ⟨rfl, rfl, rfl, rfl, rfl, rfl, .inl ⟨rfl, rfl, rfl⟩⟩

theorem keepsBlock_respond (v : Word32) (s : State) : KeepsBlock s (respond v s) :=
  ⟨rfl, rfl, rfl, rfl, rfl, rfl, .inl ⟨rfl, rfl, rfl⟩⟩

theorem keepsBlock_transportStep (s : State) : KeepsBlock s (transportStep s) :=
  ⟨by simp, by simp, by simp, by simp, by simp, transportStep_stream s, .inl (by simp)⟩

theorem keepsBlock_raiseFault (c : Cause) (w : Word64) (s : State) : KeepsBlock s (raiseFault c w s) :=
  ⟨by simp, by simp, by simp, by simp, by simp, by simp, recordKeptOrRaised_raiseFault c w s⟩

theorem keepsBlock_hostRead (off : Offset) (n : Size) (s : State) : KeepsBlock s (hostRead off n s) := by
  obtain ⟨v, h | h⟩ := hostRead_responds off n s <;> rw [h]
  · exact keepsBlock_respond v s
  · exact (keepsBlock_raiseFault ..).trans (keepsBlock_respond ..)

/-- A step resets the block, performs a command, or leaves everything of `KeepsBlock`. -/
inductive StepKind (s : State) : State → Prop
  | reset (rest : List Input) : s.inputs = .reset :: rest → StepKind s (resetInput (setInputs rest s))
  | performed (w : Word64) (rest : List Input) (i : Instr) (t : State) : Performs s w rest i →
      exec i (setInputs rest s) = .next t → StepKind s t
  | kept (t : State) : KeepsBlock s t → StepKind s t

theorem step_kind {s t : State} (h : step s = .next t) : StepKind s t := by
  cases step_next h with
  | quiet => exact .kept _ (keepsBlock_transportStep s)
  | read off n rest => exact .kept _ ((keepsBlock_setInputs rest s).trans (keepsBlock_hostRead ..))
  | staged v rest => exact .kept _ ((keepsBlock_setInputs rest s).trans (keepsBlock_stageLow ..))
  | badWrite off n v rest => exact .kept _ ((keepsBlock_setInputs rest s).trans (keepsBlock_raiseFault ..))
  | turn rest => exact .kept _ ((keepsBlock_setInputs rest s).trans (keepsBlock_transportStep _))
  | reset rest hin => exact .reset rest hin
  | committed w rest t hc ho =>
    cases ho with
    | discarded => exact .kept _ (keepsBlock_setInputs rest s)
    | overrun => exact .kept _ ((keepsBlock_setInputs rest s).trans (keepsBlock_raiseFault ..))
    | undecoded c => exact .kept _ ((keepsBlock_setInputs rest s).trans (keepsBlock_raiseFault ..))
    | executed i t hf hq hd he => exact .performed w rest i t ⟨hc, hf, hq, hd⟩ he

/-! ## The invariant -/

theorem inv_resetWith {p : Params} (n : Nat) (hp : LegalBuild p) : (State.resetWith p n).Inv where
  legal := hp
  cur_lt := hp
  cells_wf := List.Pairwise.nil
  cells_in := by simp
  record := ⟨fun _ => ⟨rfl, rfl⟩, fun h => by cases h⟩
  oq_bursts := burstsNonempty_nil
  delivered_bursts := burstsNonempty_nil

theorem inv_resetInput {s : State} (h : s.Inv) : (resetInput s).Inv :=
  { inv_resetWith (s.powerOn + 1) h.legal with delivered_bursts := h.delivered_bursts }

theorem inv_setInputs {s : State} (l : List Input) (h : s.Inv) : (setInputs l s).Inv :=
  ⟨h.legal, h.cur_lt, h.cells_wf, h.cells_in, h.record, h.oq_bursts, h.delivered_bursts⟩

theorem KeepsBlock.inv {s t : State} (h : KeepsBlock s t) (hs : s.Inv) : t.Inv := by
  have hb : BurstsNonempty (t.delivered ++ t.oq) := by
    rw [h.stream]; exact burstsNonempty_append.2 ⟨hs.delivered_bursts, hs.oq_bursts⟩
  obtain ⟨hdel, hoq⟩ := burstsNonempty_append.1 hb
  exact ⟨h.params ▸ hs.legal, by rw [h.params, h.cur]; exact hs.cur_lt, h.cells ▸ hs.cells_wf,
    by rw [h.params, h.cells]; exact hs.cells_in, h.record.recordAgrees hs.record, hoq, hdel⟩

/-- The keys a command writes are those of cells of buffer CUR, which is one of the NBUF (R24, R26). -/
theorem WroteCur.keys_lt {s : State} {m : Memory} (h : WroteCur s m) (hcur : s.cur.toNat < s.params.nbuf.toNat)
    (hs : ∀ e ∈ s.cells, e.1 < s.params.nbuf.toNat * 1024) : ∀ e ∈ m, e.1 < s.params.nbuf.toNat * 1024 := by
  intro e he
  obtain ⟨f, hf, hfe⟩ | ⟨c, hc, p, hp, hk⟩ := h.keys e he
  · exact hfe ▸ hs f hf
  · rw [hk]; exact cellKey_lt hcur hc hp

theorem ExecOutcome.inv {i : Instr} {s t : State} (h : ExecOutcome i s t) (hs : s.Inv) : t.Inv := by
  obtain ⟨new, hoq, hnew, -⟩ := h.oq
  exact ⟨h.params ▸ hs.legal, by rw [h.params]; exact h.cur_lt hs.cur_lt, h.wroteCur.wf hs.cells_wf,
    by rw [h.params]; exact h.wroteCur.keys_lt hs.cur_lt hs.cells_in, h.recordAgrees hs.record,
    by rw [hoq]; exact burstsNonempty_append.2 ⟨hs.oq_bursts, hnew⟩, h.delivered ▸ hs.delivered_bursts⟩

/-- Settles O53, by the three kinds of step. -/
theorem invariantKeptByEveryStep : Obligations.InvariantKeptByEveryStep := by
  intro s t hs h
  cases step_kind h with
  | reset rest => exact inv_resetInput (inv_setInputs rest hs)
  | performed w rest i _ _ he => exact (exec_next he).inv (inv_setInputs rest hs)
  | kept _ hk => exact hk.inv hs

/-- Settles O52: the default build has one buffer, so it is a legal one. -/
theorem invariantAtReset : Obligations.InvariantAtReset :=
  ⟨inv_resetWith 0 (by decide), fun _ n hp => inv_resetWith n hp⟩

end Sys2Proof.Machine
end

section
/-! PROOF. The commit (10_state.md R38): its three ways, the command it performs, and that a placed word is performed
(assumption log 7), for which the decoder reads back every encoded command (30_encoding.md R71, R75). -/

namespace Sys2Proof.Machine

/-- Fault entry in the words of the statements (60_exceptions.md R151). -/
theorem raiseFault_eq_withRecord (c : Cause) (w : Word64) (s : State) :
    raiseFault c w s = withRecord s (causeCode c) w := rfl

theorem CommitOutcome.cmdLo {w : Word64} {s t : State} (h : CommitOutcome w s t) : t.cmdLo = s.cmdLo := by
  cases h with
  | discarded => rfl
  | overrun => exact raiseFault_cmdLo ..
  | undecoded c => exact raiseFault_cmdLo ..
  | executed i _ _ _ _ _ ho => exact ho.cmdLo

/-- Settles O6: the step is the commit, and the commit has these ways. -/
theorem commitDiscardsOverrunsOrExecutes : Obligations.CommitDiscardsOverrunsOrExecutes := by
  rintro s w rest ⟨v, hin, rfl⟩
  rw [step_commit hin]
  refine ⟨fun ⟨hf, hop⟩ => commit_of_discarded hf hop, fun hserved hq => ?_,
    fun hserved hq => commit_of_idle (not_and_not_right.1 hserved) hq, fun t ht => ?_⟩
  · exact commit_of_busy (s := setInputs rest s) (not_and_not_right.1 hserved) hq
  · obtain ⟨u, hu, ho⟩ := commit_outcome v (setInputs rest s)
    rw [hu] at ht
    cases ht
    exact ho.cmdLo

/-! ## The command performed -/

theorem executeWord_of_decode {w : Word64} {i : Instr} (h : decode w = .ok i) (s : State) :
    executeWord w s = exec i s := by
  simp only [executeWord, h]

theorem Performs.step_eq {s : State} {w : Word64} {rest : List Input} {i : Instr} (h : Performs s w rest i) :
    step s = exec i (setInputs rest s) := by
  obtain ⟨⟨v, hin, rfl⟩, hserved, hidle, hdec⟩ := h
  rw [step_commit hin, commit_of_idle (s := setInputs rest s) hserved hidle]
  exact executeWord_of_decode hdec _

/-- Settles O5: the hypotheses are those of `Performs`. -/
theorem stepRunsTheDecodedCommand : Obligations.StepRunsTheDecodedCommand :=
  fun _ _ _ _ hc hq hserved hdec => Performs.step_eq ⟨hc, hserved, hq, hdec⟩

/-! ## The placed word -/

/-- The decoder chooses the row of the command that was encoded, with its operands. -/
theorem decode_encode_eq_decodeRow (i : Instr) :
    decode (encode i) = decodeRow (Laws.zeroMask i) (encode i) i := by
  cases i <;>
    simp [decode, encode, opcode, Laws.zeroMask, opField_enc, dField_enc, cField_enc, xField_enc, yField_enc,
      wField_enc, hField_enc]

theorem encode_and_zeroMask (i : Instr) : encode i &&& Laws.zeroMask i = 0 := by
  cases i with
  | nop => exact Laws.ReservedZero.nop
  | setpix x y v => exact Laws.ReservedZero.setpix x y v
  | runv x y pattern count => exact Laws.ReservedZero.runv x y pattern count
  | runh x y pattern count => exact Laws.ReservedZero.runh x y pattern count
  | clear x y w h => exact Laws.ReservedZero.clear x y w h
  | flush col page ncols npages => exact Laws.ReservedZero.flush col page ncols npages
  | cmd1 byte => exact Laws.ReservedZero.cmd1 byte
  | cmd2 byte arg => exact Laws.ReservedZero.cmd2 byte arg
  | bufnext => exact Laws.ReservedZero.bufnext
  | bufprev => exact Laws.ReservedZero.bufprev
  | bufgoto index => exact Laws.ReservedZero.bufgoto index
  | faultclr => exact Laws.ReservedZero.faultclr

theorem decode_encode (i : Instr) : decode (encode i) = .ok i := by
  rw [decode_encode_eq_decodeRow, decodeRow_of_zero i (encode_and_zeroMask i)]

/-- The two halves of a word form it again (R38, R75). -/
theorem commandWord_highHalf_lowHalf (w : Word64) : commandWord (highHalf w) (lowHalf w) = w :=
  BitVec.extractLsb'_append_extractLsb'

theorem tableWord_toNat (w : Word64) : tableWord 64 w.toNat = w := by
  rw [tableWord, Nat.mod_eq_of_lt w.isLt, BitVec.ofNat_toNat, BitVec.setWidth_eq]

theorem committing_withFetchWord (s : State) (w : Word64) :
    Committing (s.withFetchWord 64 w.toNat) w s.inputs := by
  refine ⟨highHalf w, ?_, ?_⟩
  · simp only [State.withFetchWord, tableWord_toNat]
  · simp only [State.withFetchWord, tableWord_toNat, commandWord_highHalf_lowHalf]

/-- Settles O9: the placed word is a commit that performs its command. -/
theorem placedWordRunsNext : Obligations.PlacedWordRunsNext := by
  intro s i hf hq
  have hp : Performs (s.withFetchWord 64 (encode i).toNat) (encode i) s.inputs i :=
    ⟨committing_withFetchWord s _, fun h => absurd (hf.symm.trans h) Bool.false_ne_true, hq, decode_encode i⟩
  rw [hp.step_eq]
  simp only [State.withFetchWord, setInputs, tableWord_toNat]

end Sys2Proof.Machine
end

section
/-! PROOF. Which steps write what: the fault record, the output stream and OQ, the store, CUR and REJ, each by the three
kinds of step (10_state.md R24, R27, R31, R32, R34, R39). -/

namespace Sys2Proof.Machine

theorem exec_faultclr (s : State) : exec .faultclr s = .next (done (clearFault s)) := rfl

/-- Settles O12: while faulted the one command performed is FAULTCLR. -/
theorem faultRecordStaysUntilCleared : Obligations.FaultRecordStaysUntilCleared := by
  intro s t h hf
  cases step_kind h with
  | reset rest hin => exact .inr ⟨rfl, rfl, rfl, .inl ⟨rest, hin⟩⟩
  | performed w rest i _ hp he =>
    obtain rfl := hp.eq_faultclr hf
    obtain rfl := eq_of_decode_faultclr (hp.served hf) hp.decoded
    rw [exec_faultclr] at he
    cases he
    exact .inr ⟨rfl, rfl, rfl, .inr ⟨hp.idle, rest, hp.committing⟩⟩
  | kept _ hk => exact .inl (hk.record.of_fault hf)

/-! ## The families of commands, by their constructors -/

theorem draws_iff (i : Instr) : Draws i ↔ (∃ x y v, i = .setpix x y v) ∨ (∃ x y p c, i = .runv x y p c) ∨
    (∃ x y p c, i = .runh x y p c) ∨ ∃ x y w h, i = .clear x y w h := by
  cases i <;> simp [Draws]

theorem queues_iff (i : Instr) :
    Queues i ↔ (∃ b, i = .cmd1 b) ∨ (∃ b a, i = .cmd2 b a) ∨ ∃ x y w h, i = .flush x y w h := by
  cases i <;> simp [Queues]

theorem selects_iff (i : Instr) : Selects i ↔ i = .bufnext ∨ i = .bufprev ∨ ∃ d, i = .bufgoto d := by
  cases i <;> simp [Selects]

theorem Draws.ne_faultclr {i : Instr} (h : Draws i) : i ≠ .faultclr := by rintro rfl; exact h
theorem Queues.ne_faultclr {i : Instr} (h : Queues i) : i ≠ .faultclr := by rintro rfl; exact h
theorem Selects.ne_faultclr {i : Instr} (h : Selects i) : i ≠ .faultclr := by rintro rfl; exact h

/-! ## What writes each element -/

/-- Settles O31: what is appended is what the performed command queued; a delivery only moves the boundary. -/
theorem streamOnlyGrows : Obligations.StreamOnlyGrows := by
  intro s t h hreset
  cases step_kind h with
  | reset rest hin => exact absurd hin (hreset rest)
  | performed w rest i _ hp he =>
    obtain ⟨new, hoq, -, hqueues⟩ := (exec_next he).oq
    refine ⟨new, by simp [hoq, (exec_next he).delivered], fun hne => ?_⟩
    have hq := hqueues hne
    exact ⟨w, rest, i, hp.committing, hp.decoded, hp.idle, hp.not_faulted hq.ne_faultclr, (queues_iff i).1 hq⟩
  | kept _ hk => exact ⟨[], by simp [hk.stream], fun hne => absurd rfl hne⟩

/-- Settles O39: a performed command that does not draw leaves the store alone. -/
theorem storeWrittenOnlyByDrawing : Obligations.StoreWrittenOnlyByDrawing := by
  intro s t h hne
  cases step_kind h with
  | reset rest hin => exact .inl ⟨rest, hin⟩
  | performed w rest i _ hp he =>
    have ho := exec_next he
    have hd : Draws i := by
      by_contra hd
      exact hne (sameStore_of_cells (ho.cells_of_not_draws hd) ho.powerOn)
    exact .inr ⟨w, rest, i, hp.committing, hp.decoded, hp.idle, hp.not_faulted hd.ne_faultclr, (draws_iff i).1 hd⟩
  | kept _ hk => exact absurd (sameStore_of_cells hk.cells hk.powerOn) hne

/-- Settles O40: a performed command that selects no buffer leaves CUR alone. -/
theorem curWrittenOnlyByBufferCommands : Obligations.CurWrittenOnlyByBufferCommands := by
  intro s t h hne
  cases step_kind h with
  | reset rest hin => exact .inl ⟨rest, hin⟩
  | performed w rest i _ hp he =>
    have hs : Selects i := by
      by_contra hs
      exact hne ((exec_next he).cur_of_not_selects hs)
    exact .inr ⟨w, rest, i, hp.committing, hp.decoded, hp.idle, hp.not_faulted hs.ne_faultclr, (selects_iff i).1 hs⟩
  | kept _ hk => exact absurd hk.cur hne

/-- Settles O41: only a performed command or a reset writes REJ, by the command's outcome. -/
theorem rejWrittenOnlyByPerformedCommands : Obligations.RejWrittenOnlyByPerformedCommands := by
  intro s t h hne
  cases step_kind h with
  | reset rest hin => exact .inl ⟨rest, hin⟩
  | performed w rest i _ hp he =>
    exact .inr ⟨w, rest, i, hp.committing, hp.decoded, hp.idle, hp.eq_faultclr, (exec_next he).rej_eq hne⟩
  | kept _ hk => exact absurd hk.rej hne

end Sys2Proof.Machine
end

section
/-! PROOF. Buffers are independent (10_state.md R26): the pixels a command paints (`paint`), which make up the cells after
it, and the run of one command from two stores that agree on buffer CUR. -/

namespace Sys2Proof.Machine

/-! ## The pixels a command paints in buffer CUR -/

/-- The value a performed command gives to pixel (x', y') of buffer CUR, none where it leaves it (R87, R93, R99, R104). -/
def paint : Instr → Nat → Nat → Option Bool
  | .setpix x y v, x', y' => if x' = x.toNat ∧ y' = y.toNat then some (v.getLsbD 0) else none
  | .runv x y pat c, x', y' =>
    if x' = x.toNat ∧ y.toNat ≤ y' ∧ y' < y.toNat + c.toNat then some (pat.getLsbD (y' - y.toNat)) else none
  | .runh x y pat c, x', y' =>
    if y' = y.toNat ∧ x.toNat ≤ x' ∧ x' < x.toNat + c.toNat then some (pat.getLsbD (7 - (x' - x.toNat))) else none
  | .clear x y w h, x', y' =>
    if (x.toNat ≤ x' ∧ x' < x.toNat + w.toNat) ∧ y.toNat ≤ y' ∧ y' < y.toNat + h.toNat then some false else none
  | .nop, _, _ | .flush .., _, _ | .cmd1 _, _, _ | .cmd2 .., _, _ | .bufnext, _, _ | .bufprev, _, _ | .bufgoto _, _, _
  | .faultclr, _, _ => none

theorem paint_of_not_draws {i : Instr} (h : ¬ Draws i) (x y : Nat) : paint i x y = none := by
  cases i with
  | setpix | runv | runh | clear => exact absurd trivial h
  | nop | flush | cmd1 | cmd2 | bufnext | bufprev | bufgoto | faultclr => rfl

/-! ## The drawing commands, performed -/

theorem exec_setpix_of_wellFormed {x y v nbuf : Byte} (h : (Instr.setpix x y v).wellFormed nbuf = true) (s : State) :
    (x.toNat < 128 ∧ y.toNat < 64) ∧
      exec (.setpix x y v) s = .next (done (writePixel x.toNat y.toNat (v.getLsbD 0) s)) := by
  simp only [Instr.wellFormed, Bool.and_eq_true, decide_eq_true_eq] at h
  refine ⟨by omega, ?_⟩
  rw [exec, execSetpix, if_neg (by omega), if_neg (by omega)]

theorem exec_runv_of_wellFormed {x y pat c nbuf : Byte} (h : (Instr.runv x y pat c).wellFormed nbuf = true)
    (s : State) : (x.toNat < 128 ∧ 1 ≤ c.toNat ∧ c.toNat ≤ 8 ∧ y.toNat + c.toNat ≤ 64) ∧
      exec (.runv x y pat c) s = .next (done (vRun x.toNat y.toNat pat c.toNat s)) := by
  simp only [Instr.wellFormed, Bool.and_eq_true, decide_eq_true_eq] at h
  refine ⟨by omega, ?_⟩
  rw [exec, execRunv, if_neg (by omega), if_neg (by omega)]

theorem exec_runh_of_wellFormed {x y pat c nbuf : Byte} (h : (Instr.runh x y pat c).wellFormed nbuf = true)
    (s : State) : (x.toNat + c.toNat ≤ 128 ∧ y.toNat < 64) ∧
      exec (.runh x y pat c) s = .next (done (hRun x.toNat y.toNat pat c.toNat s)) := by
  simp only [Instr.wellFormed, Bool.and_eq_true, decide_eq_true_eq] at h
  refine ⟨by omega, ?_⟩
  rw [exec, execRunh, if_neg (by omega), if_neg (by omega)]

theorem exec_clear_of_wellFormed {x y w h nbuf : Byte} (hw : (Instr.clear x y w h).wellFormed nbuf = true)
    (s : State) : (x.toNat + w.toNat ≤ 128 ∧ y.toNat + h.toNat ≤ 64) ∧
      exec (.clear x y w h) s = .next (done (clearRect x.toNat y.toNat w.toNat h.toNat s)) := by
  simp only [Instr.wellFormed, Bool.and_eq_true, decide_eq_true_eq] at hw
  refine ⟨by omega, ?_⟩
  rw [exec, execClear, if_neg (by omega)]

theorem ite_and_eq_getD (P Q : Prop) [Decidable P] [Decidable Q] (v old : Bool) :
    (if P ∧ Q then v else old) = if P then (if Q then some v else none).getD old else old := by
  by_cases hP : P <;> by_cases hQ : Q <;> simp [hP, hQ]

/-- A performed command paints its pixels in buffer CUR and leaves every other pixel of every buffer. -/
theorem pixel_exec {i : Instr} {s t : State} (hw : i.wellFormed s.params.nbuf = true) (h : exec i s = .next t)
    (b : Nat) {x y : Nat} (hx : x < 128) (hy : y < 64) :
    pixel t b x y = if b = s.cur.toNat then (paint i x y).getD (pixel s b x y) else pixel s b x y := by
  by_cases hd : Draws i
  · cases i with
    | setpix x₀ y₀ v =>
      obtain ⟨⟨hx₀, hy₀⟩, he⟩ := exec_setpix_of_wellFormed hw s
      cases he.symm.trans h
      rw [pixel_done, pixel_writePixel hx₀ hy₀ _ _ hx hy, ite_and_eq_getD]; rfl
    | runv x₀ y₀ pat c =>
      obtain ⟨⟨hx₀, hc, hc8, hy₀⟩, he⟩ := exec_runv_of_wellFormed hw s
      cases he.symm.trans h
      rw [pixel_done, pixel_vRun hx₀ hc hc8 hy₀ _ _ hx hy, ite_and_eq_getD]; rfl
    | runh x₀ y₀ pat c =>
      obtain ⟨⟨hx₀, hy₀⟩, he⟩ := exec_runh_of_wellFormed hw s
      cases he.symm.trans h
      rw [pixel_done, pixel_hRun hx₀ hy₀ _ _ hx hy, ite_and_eq_getD]; rfl
    | clear x₀ y₀ w h₀ =>
      obtain ⟨⟨hx₀, hy₀⟩, he⟩ := exec_clear_of_wellFormed hw s
      cases he.symm.trans h
      rw [pixel_done, pixel_clearRect hx₀ hy₀ _ hx hy, ite_and_eq_getD]; rfl
    | nop | flush | cmd1 | cmd2 | bufnext | bufprev | bufgoto | faultclr => exact absurd hd id
  · have ho := exec_next h
    rw [pixel_congr (ho.cells_of_not_draws hd) ho.powerOn, paint_of_not_draws hd, Option.getD_none, ite_self]

theorem ExecOutcome.cells_of_illFormed {i : Instr} {s t : State} (h : ExecOutcome i s t)
    (hw : i.wellFormed s.params.nbuf = false) : t.cells = s.cells := by
  cases h with
  | drew m hw' => rw [hw] at hw'; cases hw'
  | faulted c => exact raiseFault_cells ..
  | rejected | queued | selected | nothing | cleared => rfl

/-- A cell is its eight pixels (R25). -/
theorem cell_eq_of_pixel_eq {s t : State} {b c p : Nat} (h : ∀ y, y / 8 = p → pixel t b c y = pixel s b c y) :
    cell t b c p = cell s b c p := by
  refine BitVec.eq_of_getLsbD_eq fun k hk => ?_
  have hpix := h (8 * p + k) (by omega)
  rwa [pixel, pixel, show (8 * p + k) / 8 = p by omega, show (8 * p + k) % 8 = k by omega] at hpix

/-- Settles O42: the pixels a command paints are all of buffer CUR. -/
theorem otherBuffersAreUntouched : Obligations.OtherBuffersAreUntouched := by
  intro i s t h b c p hb hc hp
  cases hw : i.wellFormed s.params.nbuf with
  | false => exact cell_congr ((exec_next h).cells_of_illFormed hw) (exec_next h).powerOn b c p
  | true => exact cell_eq_of_pixel_eq fun y hy => by rw [pixel_exec hw h b hc (by omega), if_neg hb]

/-! ## One command on two stores -/

/-- The state with another store: other written cells, and another reset's unspecified contents. -/
def withStore (m : Memory) (n : Nat) (s : State) : State := { s with cells := m, powerOn := n }

/-- The state with another store shows the same cells in buffer CUR. -/
def AgreesOnCur (m : Memory) (n : Nat) (s : State) : Prop :=
  ∀ c p, c < 128 → p < 8 → cell (withStore m n s) s.cur.toNat c p = cell s s.cur.toNat c p

theorem raiseFault_withStore (c : Cause) (w : Word64) (m : Memory) (n : Nat) (s : State) :
    raiseFault c w (withStore m n s) = withStore m n (raiseFault c w s) := by
  cases hf : s.fault with
  | true => rw [raiseFault_of_fault hf, raiseFault_of_fault (s := withStore m n s) hf]
  | false => rw [raiseFault_of_no_fault hf, raiseFault_of_no_fault (s := withStore m n s) hf]; rfl

/-- A drawing that changes the cells only ends in the same state, but for its store. -/
theorem draw_withStore {f : State → State} (hf : ∀ s, f s = { s with cells := (f s).cells }) {m : Memory} {n : Nat}
    {s t : State} (h : (.next (done (f s)) : Answer) = .next t) :
    ∃ m', (.next (done (f (withStore m n s))) : Answer) = .next (withStore m' n t) := by
  cases h
  exact ⟨(f (withStore m n s)).cells, by rw [done_drew (hf (withStore m n s)), done_drew (hf s)]; rfl⟩

/-- An operand check decides the same on both stores: a stop `u` in one and `u'` in the other, else what follows. -/
theorem check_withStore {P : Prop} [Decidable P] {m : Memory} {n : Nat} {t u u' : State} {next next' : Answer}
    (hstop : u' = withStore m n u) (hnext : ¬ P → next = .next t → ∃ m', next' = .next (withStore m' n t))
    (h : (if P then .next u else next) = .next t) :
    ∃ m', (if P then .next u' else next') = .next (withStore m' n t) := by
  by_cases hP : P
  · rw [if_pos hP] at h ⊢
    cases h
    exact ⟨m, by rw [hstop]⟩
  · rw [if_neg hP] at h ⊢
    exact hnext hP h

/-- A flush in bounds reads cells of buffer CUR only (R112). -/
theorem flushGroups_withStore {m : Memory} {n : Nat} {s : State} (ha : AgreesOnCur m n s) {x y w h : Nat}
    (hx : x + w ≤ 128) (hy : y + h ≤ 8) : flushGroups (withStore m n s) x y w h = flushGroups s x y w h := by
  have hburst : ∀ p < 8, burst (withStore m n s) x w p = burst s x w p := fun p hp =>
    List.map_congr_left fun j hj => ha (x + j) p (by have := List.mem_range.1 hj; omega) hp
  refine List.flatMap_congr fun k hk => ?_
  have hpage : y + k < 8 := by have := List.mem_range.1 hk; omega
  simp only [pageGroup, hburst _ hpage]
  rfl

/-- A command on another store that agrees on buffer CUR ends in the same state, but for its store. -/
theorem exec_withStore {i : Instr} {s t : State} {m : Memory} {n : Nat} (ha : AgreesOnCur m n s)
    (h : exec i s = .next t) : ∃ m', exec i (withStore m n s) = .next (withStore m' n t) := by
  cases i with
  | nop | cmd1 | cmd2 | bufnext | bufprev | faultclr => cases h; exact ⟨m, rfl⟩
  | setpix x y v =>
    exact check_withStore (raiseFault_withStore ..) (fun _ => check_withStore (raiseFault_withStore ..) fun _ =>
      draw_withStore (writePixel_eq _ _ _)) h
  | runv x y pat c =>
    exact check_withStore (raiseFault_withStore ..) (fun _ => check_withStore (raiseFault_withStore ..) fun _ =>
      draw_withStore (vRun_eq _ _ _ _)) h
  | runh x y pat c =>
    exact check_withStore (raiseFault_withStore ..) (fun _ => check_withStore (raiseFault_withStore ..) fun _ =>
      draw_withStore (hRun_eq _ _ _ _)) h
  | clear x y w h₀ => exact check_withStore rfl (fun _ => draw_withStore (clearRect_eq _ _ _ _)) h
  | flush x y w h₀ =>
    refine check_withStore rfl (fun hb he => ⟨m, ?_⟩) h
    cases he
    rw [flushGroups_withStore ha (by omega) (by omega), foldl_emit, foldl_emit]
    rfl
  | bufgoto d => exact check_withStore rfl (fun _ he => ⟨m, by cases he; rfl⟩) h

/-- What a command leaves in buffer CUR follows from what it found there. -/
theorem cell_exec_congr {i : Instr} {s s' t t' : State} (hcur : s'.cur = s.cur)
    (hnbuf : s'.params.nbuf = s.params.nbuf)
    (ha : ∀ c p, c < 128 → p < 8 → cell s' s.cur.toNat c p = cell s s.cur.toNat c p)
    (h : exec i s = .next t) (h' : exec i s' = .next t') {c p : Nat} (hc : c < 128) (hp : p < 8) :
    cell t' s.cur.toNat c p = cell t s.cur.toNat c p := by
  cases hw : i.wellFormed s.params.nbuf with
  | false =>
    rw [cell_congr ((exec_next h').cells_of_illFormed (hnbuf ▸ hw)) (exec_next h').powerOn, ha c p hc hp,
      cell_congr ((exec_next h).cells_of_illFormed hw) (exec_next h).powerOn]
  | true =>
    refine cell_eq_of_pixel_eq fun y hy => ?_
    have hsame : pixel s' s.cur.toNat c y = pixel s s.cur.toNat c y := by
      rw [pixel, pixel, ha c _ hc (by omega)]
    rw [pixel_exec hw h _ hc (by omega), pixel_exec (hnbuf ▸ hw) h' _ hc (by omega), hcur, hsame]

/-- Settles O43: the next states differ in the store only, and agree on buffer CUR by the pixels painted. -/
theorem otherBuffersAreNotRead : Obligations.OtherBuffersAreNotRead := by
  intro i s s' t t' hs ha h h'
  obtain ⟨m, n, rfl⟩ : ∃ m n, s' = withStore m n s := ⟨_, _, hs⟩
  obtain ⟨m', he⟩ := exec_withStore ha h
  cases he.symm.trans h'
  exact ⟨rfl, fun c p => cell_exec_congr (s := s) (s' := withStore m n s) rfl rfl ha h he⟩

end Sys2Proof.Machine
end

section
/-! PROOF. The registers of the window (10_state.md R29, R33, R35, R36, R37) and the values after reset (R41). -/

namespace Sys2Proof.Machine

/-! ## Reads of the registers -/

theorem hostRead_status (s : State) : hostRead 0x000 .word s = respond (statusWord s) s := rfl
theorem hostRead_fcmdLow (s : State) : hostRead 0x004 .word s = respond (lowHalf s.fcmd) s := rfl
theorem hostRead_fcmdHigh (s : State) : hostRead 0x008 .word s = respond (highHalf s.fcmd) s := rfl
theorem hostRead_cmdLo (s : State) : hostRead 0x010 .word s = respond 0 s := rfl
theorem hostRead_cmdHi (s : State) : hostRead 0x014 .word s = respond 0 s := rfl
theorem hostWrite_cmdLo (v : Word32) (s : State) : hostWrite 0x010 .word v s = .next (stageLow v s) := rfl

/-- A word is its halves, as numbers (R35, R49). -/
theorem toNat_eq_halves (w : Word64) : w.toNat = (highHalf w).toNat * 2 ^ 32 + (lowHalf w).toNat := by
  have hw := w.isLt
  rw [highHalf, lowHalf, BitVec.extractLsb'_toNat, BitVec.extractLsb'_toNat, Nat.shiftRight_eq_div_pow,
    Nat.shiftRight_zero]
  omega

/-- Settles O45: the two registers read the halves of FCMD. -/
theorem faultRecordReadsInHalves : Obligations.FaultRecordReadsInHalves := fun s =>
  ⟨lowHalf s.fcmd, highHalf s.fcmd, hostRead_fcmdLow s, hostRead_fcmdHigh s, toNat_eq_halves s.fcmd⟩

/-- Settles O46, one register rule for each clause. -/
theorem commandRegisters : Obligations.CommandRegisters := fun s v =>
  ⟨hostWrite_cmdLo v s, hostRead_cmdLo s, hostRead_cmdHi s⟩

/-! ## STATUS, field by field (R29) -/

theorem statusWord_busy (s : State) : (statusWord s).getLsbD 0 = decide (s.oq ≠ []) := by
  rw [getLsbD_statusWord, if_pos (by omega), Bool.eq_iff_iff, decide_eq_true_iff, ← busy_eq_true s]
  cases busy s <;> decide

theorem statusWord_fault (s : State) : (statusWord s).getLsbD 1 = s.fault := by
  rw [getLsbD_statusWord, if_neg (by omega), if_pos (by omega)]
  cases s.fault <;> rfl

theorem statusWord_rej (s : State) : (statusWord s).getLsbD 2 = s.rej := by
  rw [getLsbD_statusWord, if_neg (by omega), if_neg (by omega), if_pos (by omega)]
  cases s.rej <;> rfl

theorem statusWord_zeros (s : State) : (statusWord s).extractLsb' 3 5 = 0 := by
  refine BitVec.eq_of_getLsbD_eq fun i hi => ?_
  rw [BitVec.getLsbD_extractLsb', getLsbD_statusWord, if_neg (by omega), if_neg (by omega), if_neg (by omega),
    if_pos (by omega), Bool.and_false]
  exact (BitVec.getLsbD_zero ..).symm

theorem statusWord_fcause (s : State) : (statusWord s).extractLsb' 8 8 = s.fcause := by
  refine BitVec.eq_of_getLsbD_eq fun i hi => ?_
  rw [BitVec.getLsbD_extractLsb', getLsbD_statusWord, if_neg (by omega), if_neg (by omega), if_neg (by omega),
    if_neg (by omega), if_pos (by omega), decide_eq_true hi, Bool.true_and]
  congr 1; omega

theorem statusWord_cur (s : State) : (statusWord s).extractLsb' 16 8 = s.cur := by
  refine BitVec.eq_of_getLsbD_eq fun i hi => ?_
  rw [BitVec.getLsbD_extractLsb', getLsbD_statusWord, if_neg (by omega), if_neg (by omega), if_neg (by omega),
    if_neg (by omega), if_neg (by omega), if_pos (by omega), decide_eq_true hi, Bool.true_and]
  congr 1; omega

theorem statusWord_nbuf (s : State) : (statusWord s).extractLsb' 24 8 = s.params.nbuf := by
  refine BitVec.eq_of_getLsbD_eq fun i hi => ?_
  rw [BitVec.getLsbD_extractLsb', getLsbD_statusWord, if_neg (by omega), if_neg (by omega), if_neg (by omega),
    if_neg (by omega), if_neg (by omega), if_neg (by omega), decide_eq_true hi, Bool.true_and]
  congr 1; omega

/-- A write that is not served is a bad access and nothing else (R45, R51). -/
theorem hostWrite_of_not_served {off : Offset} {n : Size} (v : Word32) (s : State) (h : ¬ WriteServed off n) :
    hostWrite off n v s = .next (raiseFault .badAccess (accessDescriptor true n off) s) := by
  rw [hostWrite, if_neg fun ⟨hn, ho⟩ => h ⟨hn, .inl ((offset_eq_iff off 0x010 (by omega)).1 ho)⟩,
    if_neg fun ⟨hn, ho⟩ => h ⟨hn, .inr ((offset_eq_iff off 0x014 (by omega)).1 ho)⟩]

/-- The build is the same after every step (R11, R33). -/
theorem step_params {s t : State} (h : step s = .next t) : t.params = s.params := by
  cases step_kind h with
  | reset => rfl
  | performed w rest i _ _ he => exact (exec_next he).params
  | kept _ hk => exact hk.params

/-- Settles O44: the fields of `statusWord`, a bad access at 0x000, and `step_params`. -/
theorem statusReadsItsFields : Obligations.StatusReadsItsFields := by
  intro s
  refine ⟨⟨statusWord s, hostRead_status s, statusWord_busy s, statusWord_fault s, statusWord_rej s,
    statusWord_zeros s, statusWord_fcause s, statusWord_cur s, statusWord_nbuf s⟩, fun n x => ?_, fun t h => ?_⟩
  · have hserved : ¬ WriteServed 0x000 n := by rintro ⟨-, h | h⟩ <;> exact absurd h (by decide)
    exact ⟨_, hostWrite_of_not_served x s hserved⟩
  · rw [step_params h]

/-! ## After reset (R41) -/

theorem toNat_append_zero {m : Nat} (a : BitVec m) (k : Nat) : (a ++ 0#k).toNat = a.toNat * 2 ^ k := by
  rw [BitVec.toNat_append, BitVec.toNat_ofNat, Nat.zero_mod, Nat.or_zero, Nat.shiftLeft_eq]

theorem statusWord_resetWith (p : Params) (n : Nat) :
    (statusWord (State.resetWith p n)).toNat = p.nbuf.toNat * 2 ^ 24 := by
  change BitVec.toNat (w := 8 + 8 + 8 + 5 + 1 + 1 + 1) (p.nbuf ++ 0#8 ++ 0#8 ++ 0#5 ++ 0#1 ++ 0#1 ++ 0#1) = _
  simp only [toNat_append_zero, Nat.mul_assoc, Nat.reduceMul, Nat.reducePow]

/-- Short of a reset the unspecified contents stay the same ones (R41, R168). -/
theorem step_powerOn {s t : State} (h : step s = .next t) (hreset : ∀ rest, s.inputs ≠ .reset :: rest) :
    t.powerOn = s.powerOn := by
  cases step_kind h with
  | reset rest hin => exact absurd hin (hreset rest)
  | performed w rest i _ _ he => exact (exec_next he).powerOn
  | kept _ hk => exact hk.powerOn

theorem byteAt_of_unwritten {s : State} {a : Nat} (h : memRead s.cells a = none) :
    byteAt s a = Config.powerOnByte s.powerOn a := by
  rw [byteAt, h, Option.getD_none]

/-- Settles O50: the values by the definition of reset, and stability by `step_powerOn`. -/
theorem resetValues : Obligations.ResetValues := by
  refine ⟨⟨{}, 0, rfl, rfl⟩, fun p n => ⟨rfl, rfl, rfl, rfl, rfl, rfl, rfl, rfl, rfl, statusWord_resetWith p n,
    fun _ _ _ => byteAt_of_unwritten rfl, fun u v h hreset hn => ?_⟩⟩
  have hv : v.powerOn = n := (step_powerOn h hreset).trans hn
  exact ⟨hv, fun a ha => hv ▸ byteAt_of_unwritten ha⟩

end Sys2Proof.Machine
end

section
/-! PROOF. The order of service and the output queue (20_memory.md R55, R57, R58): the step as the meaning of the first
input, the inputs a step leaves, and the draining of OQ once no input is left. -/

namespace Sys2Proof.Machine

/-! ## One step serves one input -/

theorem step_of_inputs_cons {s : State} {e : Input} {rest : List Input} (h : s.inputs = e :: rest) :
    step s = serve e (setInputs rest s) := by
  rw [step, serveNext, h]

theorem step_of_inputs_nil {s : State} (h : s.inputs = []) : step s = .next (transportStep s) := by
  rw [step, serveNext, h]

/-- Settles O8: the five clauses are the four arms of `serve`, and `serveNext` on an empty list. -/
theorem stepServesTheFirstInput : Obligations.StepServesTheFirstInput := fun _ _ =>
  ⟨fun _ _ h => step_of_inputs_cons h, fun _ _ _ h => step_of_inputs_cons h, fun h => step_of_inputs_cons h,
    fun h => step_of_inputs_cons h, step_of_inputs_nil⟩

theorem ExecOutcome.inputs {i : Instr} {s t : State} (h : ExecOutcome i s t) : t.inputs = s.inputs := by
  cases h with
  | faulted c => exact raiseFault_inputs ..
  | rejected | drew | queued | selected | nothing | cleared => rfl

theorem CommitOutcome.inputs {w : Word64} {s t : State} (h : CommitOutcome w s t) : t.inputs = s.inputs := by
  cases h with
  | discarded => rfl
  | overrun => exact raiseFault_inputs ..
  | undecoded c => exact raiseFault_inputs ..
  | executed i _ _ _ _ _ ho => exact ho.inputs

@[simp] theorem hostRead_inputs (off : Offset) (n : Size) (s : State) : (hostRead off n s).inputs = s.inputs := by
  obtain ⟨v, h | h⟩ := hostRead_responds off n s <;> simp [h]

/-- A step takes the first input off and leaves the others (R55). -/
theorem step_inputs {s t : State} (h : step s = .next t) : t.inputs = s.inputs.tail := by
  cases step_next h with
  | quiet hin => rw [transportStep_inputs, hin, List.tail_nil]
  | read off n rest hin => rw [hostRead_inputs, setInputs_inputs, hin, List.tail_cons]
  | staged v rest hin => rw [stageLow_inputs, setInputs_inputs, hin, List.tail_cons]
  | badWrite off n v rest hin => rw [raiseFault_inputs, setInputs_inputs, hin, List.tail_cons]
  | turn rest hin => rw [transportStep_inputs, setInputs_inputs, hin, List.tail_cons]
  | reset rest hin => rw [resetInput_inputs, setInputs_inputs, hin, List.tail_cons]
  | committed w rest t hc ho =>
    obtain ⟨v, hin, -⟩ := hc
    rw [ho.inputs, setInputs_inputs, hin, List.tail_cons]

/-! ## OQ drains (R57, R125) -/

theorem transportStep_of_oq_cons {s : State} {x : Transaction} {l : List Transaction} (h : s.oq = x :: l) :
    transportStep s = { s with oq := l, delivered := s.delivered ++ [x] } := by
  rw [transportStep, h]

theorem run_of_quiet (l : List Transaction) {s : State} (hin : s.inputs = []) (hoq : s.oq = l) :
    Host.Core.run Sys2Proof.core l.length s = .next { s with oq := [], delivered := s.delivered ++ l } := by
  induction l generalizing s with
  | nil => rw [List.length_nil, List.append_nil, ← hoq]; rfl
  | cons x l ih =>
    rw [List.length_cons, run_succ l.length (step_of_inputs_nil hin), transportStep_of_oq_cons hoq,
      ih (s := { s with oq := l, delivered := s.delivered ++ [x] }) hin rfl, List.append_assoc, List.singleton_append]

/-- Settles O29, by induction on what is queued. -/
theorem queueDrainsInOrder : Obligations.QueueDrainsInOrder := fun _ hin => run_of_quiet _ hin rfl

/-- Short of a reset, what is delivered and then what is queued only grows at its end. -/
theorem step_stream_grows {s t : State} (h : step s = .next t) (hreset : ∀ rest, s.inputs ≠ .reset :: rest) :
    s.delivered ++ s.oq <+: t.delivered ++ t.oq := by
  obtain ⟨new, hnew, -⟩ := streamOnlyGrows s t h hreset
  exact ⟨new, hnew.symm⟩

theorem run_delivers (l : List Input) {s : State} (hin : s.inputs = l) (hreset : ∀ e ∈ l, e ≠ .reset) :
    ∃ k t, Host.Core.run Sys2Proof.core k s = .next t ∧ t.oq = [] ∧ t.inputs = [] ∧
      s.delivered ++ s.oq <+: t.delivered := by
  induction l generalizing s with
  | nil => exact ⟨_, _, run_of_quiet _ hin rfl, rfl, hin, [], List.append_nil _⟩
  | cons e rest ih =>
    obtain ⟨he, hrest⟩ := List.forall_mem_cons.1 hreset
    obtain ⟨u, hu, -⟩ := step_outcome s
    have hgrow : s.delivered ++ s.oq <+: u.delivered ++ u.oq :=
      step_stream_grows hu fun r hr => he (List.cons.inj (hin.symm.trans hr)).1
    obtain ⟨k, t, hrun, hoq, hquiet, hpre⟩ := ih (s := u) (by rw [step_inputs hu, hin, List.tail_cons]) hrest
    exact ⟨k + 1, t, (run_succ k hu).trans hrun, hoq, hquiet, hgrow.trans hpre⟩

/-- Settles O30, by induction on the inputs: each is served without losing anything of the stream, then OQ drains. -/
theorem everyTransactionIsDelivered : Obligations.EveryTransactionIsDelivered := fun _ hreset =>
  run_delivers _ rfl hreset

/-- Settles O32: a command is performed only when nothing is queued, and no other step writes a cell or CUR. -/
theorem nothingIsDrawnWhileBusy : Obligations.NothingIsDrawnWhileBusy := by
  intro s t hbusy h hreset
  cases step_kind h with
  | reset rest hin => exact absurd hin (hreset rest)
  | performed w rest i _ hp => exact absurd hp.idle hbusy
  | kept _ hk => exact ⟨sameStore_of_cells hk.cells hk.powerOn, hk.cur⟩

end Sys2Proof.Machine
end

section
/-! PROOF. The framebuffer window (20_memory.md R45 to R51): the value of a read of FBWIN by its bytes, the full flush
that sends the same bytes, and the accesses that are not served. -/

namespace Sys2Proof.Machine

/-! ## Reads of FBWIN (R49, R50) -/

theorem window_mod (n : Size) (a : Nat) : (0x400 + a) % sizeBytes n = a % sizeBytes n := by
  cases n <;> simp only [sizeBytes] <;> omega

/-- A read at `a` bytes past 0x400, inside FBWIN and at a multiple of its size. -/
theorem hostRead_window (s : State) {n : Size} {a : Nat} (ha : a + sizeBytes n ≤ 1024) (hmod : a % sizeBytes n = 0) :
    hostRead (BitVec.ofNat 12 (0x400 + a)) n s = respond (fbwinValue s a (sizeBytes n)) s := by
  have hsize := sizeBytes_bounds n
  have hoff : (BitVec.ofNat 12 (0x400 + a)).toNat = 0x400 + a := by
    rw [BitVec.toNat_ofNat, Nat.mod_eq_of_lt (by omega)]
  rw [hostRead_of_fbwin s _ n (by omega) (by omega) (by rw [hoff, window_mod, hmod]), hoff, Nat.add_sub_cancel_left]

theorem fbwinValue_one (s : State) (a : Nat) : fbwinValue s a 1 = (fbwinByte s a).setWidth 32 := by
  simp [fbwinValue]

theorem hostRead_window_byte (s : State) {a : Nat} (ha : a < 1024) :
    hostRead (BitVec.ofNat 12 (0x400 + a)) .byte s = respond ((fbwinByte s a).setWidth 32) s := by
  rw [hostRead_window s (n := .byte) ha (Nat.mod_one a), sizeBytes, fbwinValue_one]

theorem fbwinByte_congr {s u : State} (hs : SameStore s u) (hcur : u.cur = s.cur) (a : Nat) :
    fbwinByte u a = fbwinByte s a := by
  rw [fbwinByte, fbwinByte, hcur]; exact hs _

theorem fbwinValue_congr {s u : State} (hs : SameStore s u) (hcur : u.cur = s.cur) (a n : Nat) :
    fbwinValue u a n = fbwinValue s a n := by
  induction n with
  | zero => rfl
  | succ n ih => rw [fbwinValue, fbwinValue, ih, fbwinByte_congr hs hcur]

/-- Settles O47: the value is `fbwinValue`, a function of the bytes and CUR, and R50's sum as a number. -/
theorem windowReadsTheCurrentBuffer : Obligations.WindowReadsTheCurrentBuffer := by
  intro s n a ha hmod
  refine ⟨fbwinValue s a (sizeBytes n), hostRead_window s ha hmod,
    (fbwinValue_toNat s a _ (sizeBytes_bounds n).2).1, fun u hs hcur => ?_⟩
  rw [hostRead_window u ha hmod, fbwinValue_congr hs hcur]; rfl

/-! ## Wide reads are byte reads (R49) -/

/-- Byte k of a wide read is the byte at offset k: later bytes are above it, earlier ones below. -/
theorem extractLsb'_fbwinValue (s : State) (a : Nat) {n k : Nat} (hn : n ≤ 4) (hk : k < n) :
    (fbwinValue s a n).extractLsb' (8 * k) 8 = fbwinByte s (a + k) := by
  induction n with
  | zero => omega
  | succ n ih =>
    refine BitVec.eq_of_getLsbD_eq fun i hi => ?_
    rw [BitVec.getLsbD_extractLsb', decide_eq_true hi, Bool.true_and, fbwinValue, BitVec.getLsbD_or,
      BitVec.getLsbD_shiftLeft, BitVec.getLsbD_setWidth]
    rcases Nat.lt_succ_iff_lt_or_eq.1 hk with hlt | rfl
    · have hbyte := congrArg (·.getLsbD i) (ih (by omega) hlt)
      simp only [BitVec.getLsbD_extractLsb', decide_eq_true hi, Bool.true_and] at hbyte
      simp [hbyte, show 8 * k + i < 8 * n by omega]
    · have hbelow : (fbwinValue s a k).getLsbD (8 * k + i) = false :=
        Nat.testBit_lt_two_pow ((fbwinValue_toNat s a k (by omega)).2.trans_le
          (Nat.pow_le_pow_right (by omega) (by omega)))
      rw [hbelow, Bool.false_or]
      simp [show 8 * k + i < 32 by omega, show i < 32 by omega]

/-- Settles O48: byte k of the value is the byte of FBWIN that the 1-byte read returns. -/
theorem wideReadsAreByteReads : Obligations.WideReadsAreByteReads := by
  intro s n off hlo hhi hmod
  obtain ⟨a, ha⟩ := Nat.exists_eq_add_of_le hlo
  have hsize := (sizeBytes_bounds n).2
  have hfits : a + sizeBytes n ≤ 1024 := by cases n <;> simp only [sizeBytes] at hmod ⊢ <;> omega
  refine ⟨_, hostRead_of_fbwin s off n hlo hhi hmod, fun k hk => ?_, (fbwinValue_toNat s _ _ hsize).2⟩
  rw [extractLsb'_fbwinValue s _ hsize hk, ha, Nat.add_assoc, hostRead_window_byte s (by omega),
    Nat.add_sub_cancel_left]
  rfl

/-! ## The full flush (R48, R115) -/

theorem dataBytes_append (l m : List Transaction) : dataBytes (l ++ m) = dataBytes l ++ dataBytes m := by
  induction l with
  | nil => rfl
  | cons t l ih => cases t <;> simp [dataBytes, ih]

theorem dataBytes_map_cmd (l : List Byte) : dataBytes (l.map .cmd) = [] := by
  induction l with
  | nil => rfl
  | cons b l ih => exact ih

theorem dataBytes_flatMap {α : Type} (f : α → List Transaction) (l : List α) :
    dataBytes (l.flatMap f) = l.flatMap fun x => dataBytes (f x) := by
  induction l with
  | nil => rfl
  | cons x l ih => rw [List.flatMap_cons, dataBytes_append, ih, List.flatMap_cons]

theorem dataBytes_pageGroup (s : State) (x w p : Nat) : dataBytes (pageGroup s x w p) = burst s x w p := by
  by_cases hw : w = 0
  · rw [pageGroup, if_pos hw, hw]; rfl
  · rw [pageGroup, if_neg hw, dataBytes_append, dataBytes_map_cmd]
    exact List.append_nil _

/-- Rows of `w` entries one after another are one list, by quotient and remainder of the position. -/
theorem flatMap_range_rows {α : Type} (f : Nat → Nat → α) {w : Nat} (hw : 0 < w) (h : Nat) :
    (List.range h).flatMap (fun p => (List.range w).map (f p)) =
      (List.range (h * w)).map fun a => f (a / w) (a % w) := by
  induction h with
  | zero => rw [Nat.zero_mul]; rfl
  | succ h ih =>
    have hrow : (List.range w).map (f h) = (List.range w).map fun j => f ((h * w + j) / w) ((h * w + j) % w) :=
      List.map_congr_left fun j hj => by
        have hj := List.mem_range.1 hj
        rw [Nat.mul_add_mod', Nat.mod_eq_of_lt hj, Nat.mul_comm, Nat.mul_add_div hw, Nat.div_eq_of_lt hj, Nat.add_zero]
    rw [List.range_succ, List.flatMap_append, ih, List.flatMap_singleton, hrow, Nat.succ_mul, List.range_add,
      List.map_append, List.map_map]
    rfl

/-- The data bytes of the whole screen are the bytes of FBWIN, in ascending order (R48). -/
theorem dataBytes_flushGroups_full (s : State) :
    dataBytes (flushGroups s 0 0 128 8) = (List.range 1024).map (fbwinByte s) := by
  calc dataBytes (flushGroups s 0 0 128 8)
      = (List.range 8).flatMap fun p => (List.range 128).map fun c => cell s s.cur.toNat c p := by
        simp only [flushGroups, dataBytes_flatMap, dataBytes_pageGroup, burst, Nat.zero_add]
    _ = (List.range 1024).map (fbwinByte s) := flatMap_range_rows _ (by omega) 8

theorem exec_flush_of_inside {x y w h : Byte} (hb : ¬ FlushOutside x y w h) (s : State) :
    exec (.flush x y w h) s =
      .next { s with oq := s.oq ++ flushGroups s x.toNat y.toNat w.toNat h.toNat, rej := false } := by
  rw [exec, execFlush, if_neg hb, foldl_emit]; rfl

/-- Settles O25: what is appended are the groups of the whole screen. -/
theorem fullFlushSendsTheWindow : Obligations.FullFlushSendsTheWindow := by
  intro s t h
  rw [exec_flush_of_inside (by decide)] at h
  cases h
  have hbytes := dataBytes_flushGroups_full s
  refine ⟨flushGroups s 0 0 128 8, rfl, by rw [hbytes, List.length_map, List.length_range], fun a ha =>
    ⟨fbwinByte s a, ?_, hostRead_window_byte s ha⟩⟩
  rw [hbytes, List.getElem?_map, List.getElem?_range ha, Option.map_some]

/-! ## Accesses that are not served (R45, R51, R147) -/

theorem readValue_of_not_served {off : Offset} {n : Size} (h : ¬ ReadServed off n) (s : State) :
    readValue s off.toNat n = none := by
  rw [readValue]
  by_cases hwin : 0x400 ≤ off.toNat ∧ off.toNat < 0x800
  · rw [if_pos hwin, if_neg fun hmod => h (.inr ⟨hwin.1, by omega, hmod⟩)]
  · rw [if_neg hwin]
    by_cases hn : n = .word
    · have hreg : ¬ (off = 0x000 ∨ off = 0x004 ∨ off = 0x008 ∨ off = 0x010 ∨ off = 0x014) :=
        fun ho => h (.inl ⟨hn, ho⟩)
      simp only [not_or] at hreg
      obtain ⟨h00, h04, h08, h10, h14⟩ := hreg
      rw [if_neg (not_not.2 hn), if_neg (mt (offset_eq_iff off 0x000 (by omega)).1 h00),
        if_neg (mt (offset_eq_iff off 0x004 (by omega)).1 h04), if_neg (mt (offset_eq_iff off 0x008 (by omega)).1 h08),
        if_neg (mt (offset_eq_iff off 0x010 (by omega)).1 h10), if_neg (mt (offset_eq_iff off 0x014 (by omega)).1 h14)]
    · rw [if_pos hn]

theorem hostRead_of_not_served {off : Offset} {n : Size} (h : ¬ ReadServed off n) (s : State) :
    hostRead off n s = respond 0 (raiseFault .badAccess (accessDescriptor false n off) s) := by
  rw [hostRead, readValue_of_not_served h]

/-- Settles O49: an access that is not served is fault entry with its descriptor, and a read returns 0. -/
theorem badAccessesAreRecorded : Obligations.BadAccessesAreRecorded := by
  intro s off n
  refine ⟨fun h => ⟨_, accessDescriptor_toNat false n off, ?_⟩,
    fun v h => ⟨_, accessDescriptor_toNat true n off, ?_⟩⟩
  · rw [hostRead_of_not_served h, respond, raiseFault_responses]; rfl
  · rw [hostWrite_of_not_served v s h]; rfl

end Sys2Proof.Machine
end

section
/-! PROOF. The decoder on any word (30_encoding.md R70 to R72, R75): an opcode selects its row, a word without reserved
bits is the encoding of the row's command, and so the Executor sorts every word. -/

namespace Sys2Proof

/-! ## A word without a row's reserved bits is the encoding of its fields (R70) -/

section
variable {op : Byte} {v z : Word64}

/-- A byte that the mask covers whole is 0. -/
theorem byte_eq_zero_of_mask {k : Nat} (h : v &&& z = 0) (hz : z.extractLsb' k 8 = 0xFF) : v.extractLsb' k 8 = 0 := by
  have hones : (0xFF : Byte) = BitVec.allOnes 8 := rfl
  rw [← BitVec.and_allOnes (x := v.extractLsb' k 8), ← hones, ← hz, ← field_and, h]
  exact BitVec.extractLsb'_zero

theorem dField_eq_zero_of_mask (h : v &&& z = 0) (hz : dField z = 0xFF) : dField v = 0 :=
  byte_eq_zero_of_mask h hz
theorem cField_eq_zero_of_mask (h : v &&& z = 0) (hz : cField z = 0xFF) : cField v = 0 :=
  byte_eq_zero_of_mask h hz
theorem xField_eq_zero_of_mask (h : v &&& z = 0) (hz : xField z = 0xFF) : xField v = 0 :=
  byte_eq_zero_of_mask h hz
theorem yField_eq_zero_of_mask (h : v &&& z = 0) (hz : yField z = 0xFF) : yField v = 0 :=
  byte_eq_zero_of_mask h hz
theorem wField_eq_zero_of_mask (h : v &&& z = 0) (hz : wField z = 0xFF) : wField v = 0 :=
  byte_eq_zero_of_mask h hz
theorem hField_eq_zero_of_mask (h : v &&& z = 0) (hz : hField z = 0xFF) : hField v = 0 :=
  byte_eq_zero_of_mask h hz
theorem rsv_eq_zero_of_mask (h : v &&& z = 0) (hz : z.extractLsb' 48 8 = 0xFF) : v.extractLsb' 48 8 = 0 :=
  byte_eq_zero_of_mask h hz

theorem enc_of_zeroNone (hop : op = opField v) (h : v &&& zeroNone = 0) : enc op 0 0 0 0 0 0 = v := by
  simpa only [hop, dField_eq_zero_of_mask h rfl, cField_eq_zero_of_mask h rfl, xField_eq_zero_of_mask h rfl,
    yField_eq_zero_of_mask h rfl, wField_eq_zero_of_mask h rfl, hField_eq_zero_of_mask h rfl]
    using enc_fields (rsv_eq_zero_of_mask h rfl)

theorem enc_of_zeroXYD (hop : op = opField v) (h : v &&& zeroXYD = 0) :
    enc op (dField v) 0 (xField v) (yField v) 0 0 = v := by
  simpa only [hop, cField_eq_zero_of_mask h rfl, wField_eq_zero_of_mask h rfl, hField_eq_zero_of_mask h rfl]
    using enc_fields (rsv_eq_zero_of_mask h rfl)

theorem enc_of_zeroXYDC (hop : op = opField v) (h : v &&& zeroXYDC = 0) :
    enc op (dField v) (cField v) (xField v) (yField v) 0 0 = v := by
  simpa only [hop, wField_eq_zero_of_mask h rfl, hField_eq_zero_of_mask h rfl]
    using enc_fields (rsv_eq_zero_of_mask h rfl)

theorem enc_of_zeroXYWH (hop : op = opField v) (h : v &&& zeroXYWH = 0) :
    enc op 0 0 (xField v) (yField v) (wField v) (hField v) = v := by
  simpa only [hop, dField_eq_zero_of_mask h rfl, cField_eq_zero_of_mask h rfl]
    using enc_fields (rsv_eq_zero_of_mask h rfl)

theorem enc_of_zeroD (hop : op = opField v) (h : v &&& zeroD = 0) : enc op (dField v) 0 0 0 0 0 = v := by
  simpa only [hop, cField_eq_zero_of_mask h rfl, xField_eq_zero_of_mask h rfl, yField_eq_zero_of_mask h rfl,
    wField_eq_zero_of_mask h rfl, hField_eq_zero_of_mask h rfl] using enc_fields (rsv_eq_zero_of_mask h rfl)

theorem enc_of_zeroDC (hop : op = opField v) (h : v &&& zeroDC = 0) : enc op (dField v) (cField v) 0 0 0 0 = v := by
  simpa only [hop, xField_eq_zero_of_mask h rfl, yField_eq_zero_of_mask h rfl, wField_eq_zero_of_mask h rfl,
    hField_eq_zero_of_mask h rfl] using enc_fields (rsv_eq_zero_of_mask h rfl)

end

/-! ## The row that an opcode selects (R69, R71) -/

/-- The row of mask `z` and command `i` is the one that the word's opcode selects. -/
structure SelectsRow (w z : Word64) (i : Instr) : Prop where
  opcode_eq : opcode i = opField w
  decode_eq : decode w = decodeRow z w i
  encode_eq : w &&& z = 0 → encode i = w

theorem exists_selectsRow {w : Word64} {r : Byte × Word64} (hr : r ∈ Machine.reservedRows) (hop : r.1 = opField w) :
    ∃ i, SelectsRow w r.2 i := by
  simp only [Machine.reservedRows, List.cons_append, List.nil_append, List.mem_cons, List.not_mem_nil, or_false] at hr
  obtain rfl | rfl | rfl | rfl | rfl | rfl | rfl | rfl | rfl | rfl | rfl | rfl := hr <;> dsimp only at hop
  · exact ⟨.nop, hop, by simp [decode, ← hop, zeroNone], enc_of_zeroNone hop⟩
  · exact ⟨.setpix (xField w) (yField w) (dField w), hop, by simp [decode, ← hop, zeroXYD], enc_of_zeroXYD hop⟩
  · exact ⟨.runv (xField w) (yField w) (dField w) (cField w), hop, by simp [decode, ← hop, zeroXYDC],
      enc_of_zeroXYDC hop⟩
  · exact ⟨.runh (xField w) (yField w) (dField w) (cField w), hop, by simp [decode, ← hop, zeroXYDC],
      enc_of_zeroXYDC hop⟩
  · exact ⟨.clear (xField w) (yField w) (wField w) (hField w), hop, by simp [decode, ← hop, zeroXYWH],
      enc_of_zeroXYWH hop⟩
  · exact ⟨.flush (xField w) (yField w) (wField w) (hField w), hop, by simp [decode, ← hop, zeroXYWH],
      enc_of_zeroXYWH hop⟩
  · exact ⟨.cmd1 (dField w), hop, by simp [decode, ← hop, zeroD], enc_of_zeroD hop⟩
  · exact ⟨.cmd2 (dField w) (cField w), hop, by simp [decode, ← hop, zeroDC], enc_of_zeroDC hop⟩
  · exact ⟨.bufnext, hop, by simp [decode, ← hop, zeroNone], enc_of_zeroNone hop⟩
  · exact ⟨.bufprev, hop, by simp [decode, ← hop, zeroNone], enc_of_zeroNone hop⟩
  · exact ⟨.bufgoto (dField w), hop, by simp [decode, ← hop, zeroD], enc_of_zeroD hop⟩
  · exact ⟨.faultclr, hop, by simp [decode, ← hop, zeroNone], enc_of_zeroNone hop⟩

theorem decode_of_unlisted {w : Word64} (h : ∀ r ∈ Machine.reservedRows, r.1 ≠ opField w) :
    decode w = .error .illegalOpcode := by
  simp only [Machine.reservedRows, List.cons_append, List.nil_append, List.forall_mem_cons,
    ne_comm (b := opField w)] at h
  obtain ⟨h00, h01, h02, h03, h04, h10, h11, h12, h20, h21, h22, h3F, -⟩ := h
  simp only [decode, h00, h01, h02, h03, h04, h10, h11, h12, h20, h21, h22, h3F, if_false]

/-- Settles O1: `decode_encode`, the row of the encoded opcode with no reserved bit set. -/
theorem decodeOfEncodeIsTheCommand : Obligations.DecodeOfEncodeIsTheCommand := Machine.decode_encode

/-- Settles O2: a word that decodes has a listed opcode, and its row, with no reserved bit set, gives the word back. -/
theorem encodeOfDecodeIsTheWord : Obligations.EncodeOfDecodeIsTheWord := by
  intro w i hdec
  by_cases hop : ∃ r ∈ Machine.reservedRows, r.1 = opField w
  · obtain ⟨r, hr, hop⟩ := hop
    obtain ⟨j, hrow⟩ := exists_selectsRow hr hop
    obtain ⟨hzero, rfl⟩ := decodeRow_ok (hrow.decode_eq.symm.trans hdec)
    exact hrow.encode_eq hzero
  · rw [decode_of_unlisted fun r hr hop' => hop ⟨r, hr, hop'⟩] at hdec
    cases hdec

end Sys2Proof

/-! ## The Executor on any word, and the step -/

namespace Sys2Proof.Machine

theorem executeWord_of_illegalOpcode {w : Word64} (h : decode w = .error .illegalOpcode) (s : State) :
    executeWord w s = .next (withRecord s 1 w) := by
  simp only [executeWord, h]; rfl

theorem executeWord_of_reservedField {w : Word64} (h : decode w = .error .reservedField) (s : State) :
    executeWord w s = .next (withRecord s 2 w) := by
  simp only [executeWord, h]; rfl

/-- Settles O3: an unlisted opcode is illegal, and a listed one selects its row. -/
theorem executorSortsEveryWord : Obligations.ExecutorSortsEveryWord := by
  intro w s
  refine ⟨fun h => executeWord_of_illegalOpcode (decode_of_unlisted h) s, fun r hr hop => ?_⟩
  obtain ⟨i, hrow⟩ := exists_selectsRow hr hop
  constructor
  · intro hbits
    exact executeWord_of_reservedField (hrow.decode_eq.trans (decodeRow_of_reserved i hbits)) s
  · intro hzero
    exact ⟨i, hrow.opcode_eq, hrow.encode_eq hzero,
      executeWord_of_decode (hrow.decode_eq.trans (decodeRow_of_zero i hzero)) s⟩

/-- Settles O10: every outcome of a step is a next state. -/
theorem everyStepAnswersANextState : Obligations.EveryStepAnswersANextState := by
  intro s
  obtain ⟨t, hstep, -⟩ := step_outcome s
  exact ⟨t, hstep⟩

/-- Settles O4: the twelve words are the encodings of their commands; 0x05 is in no row, and 0x80 is a bit of RSV. -/
theorem specWordsDecode : Obligations.SpecWordsDecode :=
  ⟨decode_encode .nop, decode_encode (.setpix 5 10 1), decode_encode (.runv 3 6 0x1F 5),
    decode_encode (.runh 10 3 0xA0 4), decode_encode (.clear 0 0 128 64), decode_encode (.flush 4 2 2 1),
    decode_encode (.cmd1 0xAF), decode_encode (.cmd2 0x81 0x7F), decode_encode .bufnext, decode_encode .bufprev,
    decode_encode (.bufgoto 2), decode_encode .faultclr, rfl, rfl⟩

end Sys2Proof.Machine
end

section
/-! PROOF. SETPIX, RUNV, RUNH and CLEAR (40_pixel_run.md R85 to R107): what each leaves in the framebuffer, the operands
that fault or are rejected, SETPIX 1 then SETPIX 0, and the read-back of a cleared buffer. -/

namespace Sys2Proof.Machine

/-! ## Operands out of range -/

theorem exec_setpix_of_valueBad {x y v : Byte} (h : ValueBad v) (s : State) :
    exec (.setpix x y v) s = .next (withRecord s 3 (encode (.setpix x y v))) := by
  rw [exec, execSetpix, if_pos h]; rfl

theorem exec_setpix_of_pixelOutside {x y v : Byte} (hv : ¬ ValueBad v) (h : PixelOutside x y) (s : State) :
    exec (.setpix x y v) s = .next (withRecord s 5 (encode (.setpix x y v))) := by
  rw [exec, execSetpix, if_neg hv, if_pos h]; rfl

theorem exec_runv_of_countBad {x y pat c : Byte} (h : CountBad c) (s : State) :
    exec (.runv x y pat c) s = .next (withRecord s 4 (encode (.runv x y pat c))) := by
  rw [exec, execRunv, if_pos h]; rfl

theorem exec_runv_of_columnRunOutside {x y pat c : Byte} (hc : ¬ CountBad c) (h : ColumnRunOutside x y c) (s : State) :
    exec (.runv x y pat c) s = .next (withRecord s 5 (encode (.runv x y pat c))) := by
  rw [exec, execRunv, if_neg hc, if_pos h]; rfl

theorem exec_runh_of_countBad {x y pat c : Byte} (h : CountBad c) (s : State) :
    exec (.runh x y pat c) s = .next (withRecord s 4 (encode (.runh x y pat c))) := by
  rw [exec, execRunh, if_pos h]; rfl

theorem exec_runh_of_rowRunOutside {x y pat c : Byte} (hc : ¬ CountBad c) (h : RowRunOutside x y c) (s : State) :
    exec (.runh x y pat c) s = .next (withRecord s 5 (encode (.runh x y pat c))) := by
  rw [exec, execRunh, if_neg hc, if_pos h]; rfl

theorem exec_clear_of_clearOutside {x y w h : Byte} (hout : ClearOutside x y w h) (s : State) :
    exec (.clear x y w h) s = .next { s with rej := true } := by
  rw [exec, execClear, if_pos hout]; rfl

/-! ## Operands in range -/

theorem exec_setpix_of_inRange {x y v : Byte} (hv : v.toNat ≤ 1) (hx : x.toNat < 128) (hy : y.toNat < 64)
    (s : State) : exec (.setpix x y v) s = .next (done (writePixel x.toNat y.toNat (v.getLsbD 0) s)) :=
  (exec_setpix_of_wellFormed (nbuf := 0) (by simp [Instr.wellFormed, hv, hx, hy]) s).2

theorem exec_runv_of_inRange {x y c : Byte} (hc : 1 ≤ c.toNat) (hc8 : c.toNat ≤ 8) (hx : x.toNat < 128)
    (hy : y.toNat + c.toNat ≤ 64) (pat : Byte) (s : State) :
    exec (.runv x y pat c) s = .next (done (vRun x.toNat y.toNat pat c.toNat s)) :=
  (exec_runv_of_wellFormed (nbuf := 0) (by simp [Instr.wellFormed, hc, hc8, hx, hy]) s).2

theorem exec_runh_of_inRange {x y c : Byte} (hc : 1 ≤ c.toNat) (hc8 : c.toNat ≤ 8) (hy : y.toNat < 64)
    (hx : x.toNat + c.toNat ≤ 128) (pat : Byte) (s : State) :
    exec (.runh x y pat c) s = .next (done (hRun x.toNat y.toNat pat c.toNat s)) :=
  (exec_runh_of_wellFormed (nbuf := 0) (by simp [Instr.wellFormed, hc, hc8, hx, hy]) s).2

theorem exec_clear_of_inRange {x y w h : Byte} (hx : x.toNat + w.toNat ≤ 128) (hy : y.toNat + h.toNat ≤ 64)
    (s : State) : exec (.clear x y w h) s = .next (done (clearRect x.toNat y.toNat w.toNat h.toNat s)) :=
  (exec_clear_of_wellFormed (nbuf := 0) (by simp [Instr.wellFormed, hx, hy]) s).2

theorem getLsbD_zero_of_le_one {v : Byte} (h : v.toNat ≤ 1) : v.getLsbD 0 = decide (v = 1) := by
  obtain h0 | h1 : v.toNat = 0 ∨ v.toNat = 1 := by omega
  · rw [BitVec.eq_of_toNat_eq (y := 0#8) h0]; decide
  · rw [BitVec.eq_of_toNat_eq (y := 1#8) h1]; decide

/-! ## The four drawing commands -/

/-- Settles O15: the branches of SETPIX, and in range what `writePixel` does to each pixel and byte. -/
theorem setpixWritesOnePixel : Obligations.SetpixWritesOnePixel := by
  intro x y v s
  refine ⟨fun hv hx hy => ?_, fun hv => exec_setpix_of_valueBad hv s,
    fun hv hout => exec_setpix_of_pixelOutside (by omega) hout s⟩
  refine ⟨_, exec_setpix_of_inRange hv hx hy s, done_drew (writePixel_eq ..), ?_, fun b x' y' hx' hy' hne => ?_,
    fun a ha => ?_⟩
  · rw [pixel_done, pixel_writePixel hx hy _ _ hx hy, if_pos ⟨rfl, rfl, rfl⟩, getLsbD_zero_of_le_one hv]
  · rw [pixel_done, pixel_writePixel hx hy _ _ hx' hy', if_neg hne]
  · rw [byteAt_done, byteAt_writePixel_other _ ha]

/-- Settles O16: the branches of RUNV, and in range what `vRun` does to each pixel and byte. -/
theorem runvWritesTheColumnSpan : Obligations.RunvWritesTheColumnSpan := by
  intro x y pat c s
  refine ⟨fun hc hc8 hx hy => ?_, fun hc => exec_runv_of_countBad hc s,
    fun hc hc8 hout => exec_runv_of_columnRunOutside (by omega) hout s⟩
  refine ⟨_, exec_runv_of_inRange hc hc8 hx hy pat s, done_drew (vRun_eq ..), fun i hi => ?_,
    fun b x' y' hx' hy' hne => ?_, fun a ha ha2 => ?_⟩
  · rw [pixel_done, pixel_vRun hx hc hc8 hy _ _ hx (by omega), if_pos (by omega), Nat.add_sub_cancel_left]
  · rw [pixel_done, pixel_vRun hx hc hc8 hy _ _ hx' hy', if_neg hne]
  · rw [byteAt_done, byteAt_vRun_other _ ha ha2]

/-- Settles O17: the branches of RUNH, and in range what the loop `hRun` does to each pixel and byte. -/
theorem runhWritesTheRowSpan : Obligations.RunhWritesTheRowSpan := by
  intro x y pat c s
  refine ⟨fun hc hc8 hy hx => ?_, fun hc => exec_runh_of_countBad hc s,
    fun hc hc8 hout => exec_runh_of_rowRunOutside (by omega) hout s⟩
  refine ⟨_, exec_runh_of_inRange hc hc8 hy hx pat s, done_drew (hRun_eq ..), fun j hj => ?_,
    fun b x' y' hx' hy' hne => ?_, fun a ha => ?_⟩
  · rw [pixel_done, pixel_hRun hx hy _ _ (by omega) hy, if_pos (by omega), Nat.add_sub_cancel_left]
  · rw [pixel_done, pixel_hRun hx hy _ _ hx' hy', if_neg hne]
  · rw [byteAt_done, byteAt_hRun_other _ ha]

/-- Settles O18: the branches of CLEAR, and in range what the loops `clearRect` do to each pixel and byte. -/
theorem clearZeroesTheRectangle : Obligations.ClearZeroesTheRectangle := by
  intro x y w h s
  refine ⟨fun hx hy => ?_, fun hout => exec_clear_of_clearOutside hout s⟩
  refine ⟨_, exec_clear_of_inRange hx hy s, done_drew (clearRect_eq ..), fun x' y' hx1 hx2 hy1 hy2 => ?_,
    fun b x' y' hx' hy' hne => ?_, fun a ha => ?_⟩
  · rw [pixel_done, pixel_clearRect hx hy _ (by omega) (by omega), if_pos ⟨rfl, ⟨hx1, hx2⟩, hy1, hy2⟩]
  · rw [pixel_done, pixel_clearRect hx hy _ hx' hy', if_neg (by rwa [and_assoc])]
  · rw [byteAt_done, byteAt_clearRect_other ha]

/-! ## A cell and its pixels (10_state.md R25) -/

theorem getLsbD_cell (s : State) (b c p : Nat) {i : Nat} (hi : i < 8) :
    (cell s b c p).getLsbD i = pixel s b c (8 * p + i) := by
  rw [pixel, show (8 * p + i) / 8 = p by omega, show (8 * p + i) % 8 = i by omega]

/-! ## SETPIX 1 then SETPIX 0 (R88) -/

theorem pixel_writePixel_twice {x y : Nat} (hx : x < 128) (hy : y < 64) (v w : Bool) (s : State) {b x' y' : Nat}
    (hx' : x' < 128) (hy' : y' < 64) :
    pixel (done (writePixel x y w (done (writePixel x y v s)))) b x' y' =
      if b = s.cur.toNat ∧ x' = x ∧ y' = y then w else pixel s b x' y' := by
  rw [pixel_done, pixel_writePixel hx hy _ _ hx' hy', done_cur, writePixel_cur, pixel_done,
    pixel_writePixel hx hy _ _ hx' hy']
  by_cases h : b = s.cur.toNat ∧ x' = x ∧ y' = y
  · rw [if_pos h, if_pos h]
  · rw [if_neg h, if_neg h, if_neg h]

theorem execAll_setpix_pair {x y v w : Byte} (hv : v.toNat ≤ 1) (hw : w.toNat ≤ 1) (hx : x.toNat < 128)
    (hy : y.toNat < 64) (s : State) :
    execAll [.setpix x y v, .setpix x y w] s = .next
      (done (writePixel x.toNat y.toNat (w.getLsbD 0) (done (writePixel x.toNat y.toNat (v.getLsbD 0) s)))) := by
  simp only [execAll, exec_setpix_of_inRange hv hx hy, exec_setpix_of_inRange hw hx hy]

/-- Settles O21: the pair clears one pixel, and the cell is its eight pixels. -/
theorem setThenClearRestoresAClearPixel : Obligations.SetThenClearRestoresAClearPixel := by
  intro x y s hx hy
  refine ⟨_, execAll_setpix_pair (by decide) (by decide) hx hy s, ?_⟩
  generalize ht : done (writePixel x.toNat y.toNat _ _) = t
  have hpix : ∀ {y'}, y' < 64 → pixel t s.cur.toNat x.toNat y' =
      if y' = y.toNat then false else pixel s s.cur.toNat x.toNat y' := fun hy' => by
    rw [← ht, pixel_writePixel_twice hx hy _ _ _ hx hy']; simp
  have hclear : pixel t s.cur.toNat x.toNat y.toNat = false := by rw [hpix hy, if_pos rfl]
  refine ⟨hclear, fun i hi hne => ?_, fun hcell => ?_, fun hold => ?_⟩
  · rw [getLsbD_cell _ _ _ _ hi, getLsbD_cell _ _ _ _ hi, hpix (by omega), if_neg (by omega)]
  · rwa [pixel, hcell] at hclear
  · refine cell_eq_of_pixel_eq fun y' hy' => ?_
    rw [hpix (by omega)]
    split
    · rename_i heq; rw [heq, hold]
    · rfl

/-! ## The cleared buffer reads 0 (R107) -/

theorem fbwinValue_eq_zero {s : State} {a n : Nat} (h : ∀ k < n, fbwinByte s (a + k) = 0) : fbwinValue s a n = 0 := by
  induction n with
  | zero => rfl
  | succ n ih => rw [fbwinValue, ih fun k hk => h k (by omega), h n (by omega)]; simp

/-- A byte of FBWIN is eight pixels of buffer CUR (20_memory.md R48). -/
theorem fbwinByte_eq_zero {s : State} (h : ∀ x y, x < 128 → y < 64 → pixel s s.cur.toNat x y = false) {a : Nat}
    (ha : a < 1024) : fbwinByte s a = 0 := by
  refine BitVec.eq_of_getLsbD_eq fun i hi => ?_
  rw [fbwinByte, getLsbD_cell _ _ _ _ hi, h _ _ (by omega) (by omega)]
  simp

/-- Settles O22: by O18 every pixel of buffer CUR is 0, and a served read of FBWIN is made of bytes of that buffer. -/
theorem clearAllReadsBackZero : Obligations.ClearAllReadsBackZero := by
  intro s t h off n hlo hhi hmod rest
  obtain ⟨u, hu, hframe, hzero, -⟩ := (clearZeroesTheRectangle 0 0 128 64 s).1 (by decide) (by decide)
  cases hu.symm.trans h
  have hcur : t.cur = s.cur := by rw [hframe]
  have hpix : ∀ x y, x < 128 → y < 64 → pixel t t.cur.toNat x y = false := fun x y hx hy => by
    rw [hcur]
    exact hzero x y (Nat.zero_le _) (by simpa using hx) (Nat.zero_le _) (by simpa using hy)
  have hfits : off.toNat - 0x400 + sizeBytes n ≤ 1024 := by cases n <;> simp only [sizeBytes] at hmod ⊢ <;> omega
  have hsame : SameStore t { t with inputs := rest } := fun _ => rfl
  have hvalue : fbwinValue { t with inputs := rest } (off.toNat - 0x400) (sizeBytes n) = 0 :=
    (fbwinValue_congr hsame rfl _ _).trans
      (fbwinValue_eq_zero fun k hk => fbwinByte_eq_zero hpix (by omega))
  rw [hostRead_of_fbwin _ off n hlo hhi hmod, hvalue]
  rfl

end Sys2Proof.Machine
end

section
/-! PROOF. A run is the SETPIX of its pixels in turn (40_pixel_run.md R82, R97): the SETPIX commands leave what a loop
of `writePixel` leaves (`setPixels`), which is RUNH's own loop, and for RUNV has the same pixels. -/

namespace Sys2Proof.Machine

/-! ## Pixels set in turn -/

/-- Pixel `(px i, py i)` of buffer CUR takes `v i`, for i in 0 .. n-1. -/
def setPixels (px py : Nat → Nat) (v : Nat → Bool) (n : Nat) (s : State) : State :=
  (List.range n).foldl (fun t i => writePixel (px i) (py i) (v i) t) s

theorem setPixels_succ (px py : Nat → Nat) (v : Nat → Bool) (n : Nat) (s : State) :
    setPixels px py v (n + 1) s = writePixel (px n) (py n) (v n) (setPixels px py v n s) := by
  simp [setPixels, List.range_succ]

theorem setPixels_eq (px py : Nat → Nat) (v : Nat → Bool) (n : Nat) (s : State) :
    setPixels px py v n s = { s with cells := (setPixels px py v n s).cells } :=
  foldl_range_cells (fun _ _ => writePixel_eq _ _ _ _) n s

theorem hRun_eq_setPixels (x y : Nat) (pat : Byte) (n : Nat) (s : State) :
    hRun x y pat n s = setPixels (fun j => x + j) (fun _ => y) (fun j => pat.getLsbD (7 - j)) n s := rfl

theorem done_writePixel_done (x y : Nat) (v : Bool) (s : State) :
    done (writePixel x y v (done s)) = done (writePixel x y v s) := rfl

theorem exec_setpix_bit {X Y : Byte} (v : Bool) (hx : X.toNat < 128) (hy : Y.toNat < 64) (s : State) :
    exec (.setpix X Y (if v then 1 else 0)) s = .next (done (writePixel X.toNat Y.toNat v s)) := by
  cases v <;> exact exec_setpix_of_inRange (by decide) hx hy s

/-- SETPIX commands in turn, one or more, end where the loop of `writePixel` does, with REJ = 0. -/
theorem execAll_setpix_range (X Y : Nat → Byte) (v : Nat → Bool) {n : Nat} (hn : 1 ≤ n) (s : State)
    (h : ∀ i < n, (X i).toNat < 128 ∧ (Y i).toNat < 64) :
    execAll ((List.range n).map fun i => .setpix (X i) (Y i) (if v i then 1 else 0)) s =
      .next (done (setPixels (fun i => (X i).toNat) (fun i => (Y i).toNat) v n s)) := by
  induction n, hn using Nat.le_induction with
  | base =>
    obtain ⟨hx, hy⟩ := h 0 (by omega)
    exact execAll_append (l := []) rfl |>.trans (exec_setpix_bit (v 0) hx hy s)
  | succ n hn ih =>
    obtain ⟨hx, hy⟩ := h n (by omega)
    rw [List.range_succ, List.map_append, List.map_cons, List.map_nil,
      execAll_append (ih fun i hi => h i (by omega)), exec_setpix_bit _ hx hy, done_writePixel_done, setPixels_succ]

theorem setPixels_congr {px py px' py' : Nat → Nat} {n : Nat} (hx : ∀ i < n, px i = px' i)
    (hy : ∀ i < n, py i = py' i) (v : Nat → Bool) (s : State) : setPixels px py v n s = setPixels px' py' v n s :=
  List.foldl_ext _ _ s fun t i hi => by rw [hx i (List.mem_range.1 hi), hy i (List.mem_range.1 hi)]

/-- Settles O20: RUNH's loop is the loop the SETPIX commands run, so the two end in one state. -/
theorem runhEqualsItsPixels : Obligations.RunhEqualsItsPixels := by
  intro x y pat c s hc hc8 hy hx
  have hX : ∀ j < c.toNat, (BitVec.ofNat 8 (x.toNat + j)).toNat = x.toNat + j := fun j hj =>
    ofNat_toNat_of_lt (by omega)
  refine ⟨_, _, exec_runh_of_inRange hc hc8 hy hx pat s,
    execAll_setpix_range _ (fun _ => y) _ hc s fun j hj => ⟨by rw [hX j hj]; omega, hy⟩, ?_⟩
  rw [setPixels_congr hX fun _ _ => rfl, ← hRun_eq_setPixels]
  exact ⟨fun _ => rfl, rfl⟩

/-! ## Pixels set down a column -/

/-- Rows y to y+n-1 of column x take `v`, and no other pixel changes. -/
theorem pixel_setPixels_column {x y n : Nat} (hx : x < 128) (hy : y + n ≤ 64) (v : Nat → Bool) (s : State)
    {b x' y' : Nat} (hx' : x' < 128) (hy' : y' < 64) :
    pixel (setPixels (fun _ => x) (fun i => y + i) v n s) b x' y' =
      if b = s.cur.toNat ∧ x' = x ∧ y ≤ y' ∧ y' < y + n then v (y' - y) else pixel s b x' y' := by
  induction n with
  | zero => rw [if_neg (by omega)]; rfl
  | succ n ih =>
    have hcur : (setPixels (fun _ => x) (fun i => y + i) v n s).cur = s.cur := by rw [setPixels_eq]
    rw [setPixels_succ, pixel_writePixel hx (by omega) _ _ hx' hy', ih (by omega), hcur]
    by_cases hlast : y' = y + n
    · subst hlast
      by_cases hcol : b = s.cur.toNat ∧ x' = x
      · rw [if_pos ⟨hcol.1, hcol.2, rfl⟩, if_pos ⟨hcol.1, hcol.2, by omega, by omega⟩, Nat.add_sub_cancel_left]
      · rw [if_neg (by tauto), if_neg (by omega), if_neg (by tauto)]
    · rw [if_neg (by tauto)]
      exact if_congr (by omega) rfl rfl

theorem byteAt_setPixels_other {px py : Nat → Nat} (v : Nat → Bool) {n : Nat} {s : State} {a : Nat}
    (h : ∀ i < n, a ≠ curKey s (px i) (py i / 8)) : byteAt (setPixels px py v n s) a = byteAt s a := by
  induction n with
  | zero => rfl
  | succ n ih =>
    have hkey : ∀ c p, curKey (setPixels px py v n s) c p = curKey s c p := fun c p => by rw [setPixels_eq]; rfl
    rw [setPixels_succ, byteAt_writePixel_other _ (by rw [hkey]; exact h n (by omega)), ih fun i hi => h i (by omega)]

/-- Two stores with the same pixels in buffer `b` and the same bytes outside its cells are the same. -/
theorem sameStore_of_pixel_eq {t u : State} (b : Nat)
    (hpix : ∀ x y, x < 128 → y < 64 → pixel u b x y = pixel t b x y)
    (hout : ∀ a, (∀ c < 128, ∀ p < 8, a ≠ cellKey b c p) → byteAt u a = byteAt t a) : SameStore t u := by
  intro a
  by_cases hin : ∃ c < 128, ∃ p < 8, a = cellKey b c p
  · obtain ⟨c, hc, p, hp, rfl⟩ := hin
    exact cell_eq_of_pixel_eq fun y hy => hpix c y hc (by omega)
  · exact hout a fun c hc p hp heq => hin ⟨c, hc, p, hp, heq⟩

/-- `VRun` leaves the same bytes as `WritePixel` of its pixels in turn (R82). -/
theorem sameStore_vRun_setPixels {x y n : Nat} (hx : x < 128) (hn : 1 ≤ n) (hn8 : n ≤ 8) (hy : y + n ≤ 64)
    (pat : Byte) (s : State) :
    SameStore (vRun x y pat n s) (setPixels (fun _ => x) (fun i => y + i) pat.getLsbD n s) := by
  refine sameStore_of_pixel_eq s.cur.toNat (fun x' y' hx' hy' => ?_) fun a ha => ?_
  · rw [pixel_setPixels_column hx hy _ _ hx' hy', pixel_vRun hx hn hn8 hy _ _ hx' hy']
  · rw [byteAt_setPixels_other _ fun i hi => ha x hx _ (by omega),
      byteAt_vRun_other _ (ha x hx _ (by omega)) fun hcross => ha x hx _ (by omega)]

/-- Settles O19: `sameStore_vRun_setPixels`, and neither side changes anything but the cells and REJ. -/
theorem runvEqualsItsPixels : Obligations.RunvEqualsItsPixels := by
  intro x y pat c s hc hc8 hx hy
  have hY : ∀ i < c.toNat, (BitVec.ofNat 8 (y.toNat + i)).toNat = y.toNat + i := fun i hi =>
    ofNat_toNat_of_lt (by omega)
  refine ⟨_, _, exec_runv_of_inRange hc hc8 hx hy pat s,
    execAll_setpix_range (fun _ => x) _ _ hc s fun i hi => ⟨hx, by rw [hY i hi]; omega⟩, ?_⟩
  rw [setPixels_congr (fun _ _ => rfl) hY]
  refine ⟨sameStore_vRun_setPixels hx hc hc8 hy pat s, ?_⟩
  rw [done_drew (setPixels_eq ..), done_drew (vRun_eq ..)]

end Sys2Proof.Machine
end

section
/-! PROOF. The transport commands and the Transport step (41_transport_dma.md R112, R118, R121, R123), and the frame of
the commands that draw nothing. -/

namespace Sys2Proof.Machine

/-! ## FLUSH (R112, R113) -/

theorem exec_flush_of_outside {x y w h : Byte} (hout : FlushOutside x y w h) (s : State) :
    exec (.flush x y w h) s = .next { s with rej := true } := by
  rw [exec, execFlush, if_pos hout]; rfl

theorem pageGroup_eq_nil_iff (s : State) (x w p : Nat) : pageGroup s x w p = [] ↔ w = 0 := by
  rw [pageGroup]
  split <;> simp [*]

/-- A flush queues nothing exactly when its region has no column or no page (R113). -/
theorem flushGroups_eq_nil_iff (s : State) (x y w h : Nat) : flushGroups s x y w h = [] ↔ w = 0 ∨ h = 0 := by
  simp only [flushGroups, List.flatMap_eq_nil_iff, List.mem_range, pageGroup_eq_nil_iff]
  constructor
  · intro hall
    rcases Nat.eq_zero_or_pos h with h0 | hpos
    · exact .inr h0
    · exact .inl (hall 0 hpos)
  · rintro (hw | rfl) k hk
    · exact hw
    · omega

/-- What FLUSH appends, with the condition and the burst written out as R112 has them. -/
theorem flushGroups_eq_flatMap (s : State) (x y w h : Nat) :
    flushGroups s x y w h = (List.range h).flatMap fun k =>
      if w > 0 then
        (cursorCmds s.params (y + k) x).map .cmd ++
          [.data ((List.range w).map fun j => cell s s.cur.toNat (x + j) (y + k))]
      else [] := by
  rcases Nat.eq_zero_or_pos w with hw | hw
  · simp only [flushGroups, pageGroup, if_pos hw, if_neg (Nat.not_lt.2 hw.le)]
  · simp only [flushGroups, pageGroup, if_neg hw.ne', if_pos hw, burst]

/-- Settles O23: in bounds `flushGroups` is appended, and it is empty exactly for an empty region; else a reject. -/
theorem flushQueuesTheRegion : Obligations.FlushQueuesTheRegion := by
  intro x y w h s
  refine ⟨fun hx hy => ⟨_, exec_flush_of_inside (by omega) s, rfl, ?_, fun hoq => ?_⟩,
    fun hout => exec_flush_of_outside hout s⟩
  · exact congrArg (s.oq ++ ·) (flushGroups_eq_flatMap ..)
  · rw [busy_eq_true, hoq, List.nil_append, ne_eq, flushGroups_eq_nil_iff]
    omega

/-! ## CMD1 and CMD2 (R118, R121) -/

theorem exec_cmd1 (b : Byte) (s : State) : exec (.cmd1 b) s = .next { s with oq := s.oq ++ [.cmd b], rej := false } :=
  rfl

theorem exec_cmd2 (b a : Byte) (s : State) :
    exec (.cmd2 b a) s = .next { s with oq := s.oq ++ [.cmd b, .cmd a], rej := false } := by
  simp [exec, execCmd2, emit, done]

/-- Settles O26, one equation for each command. -/
theorem commandBytesAreQueued : Obligations.CommandBytesAreQueued := fun b a s => ⟨exec_cmd1 b s, exec_cmd2 b a s⟩

/-! ## The Transport step (R123, R124) -/

theorem transportStep_of_oq_nil {s : State} (h : s.oq = []) : transportStep s = s := by
  rw [transportStep, h]

/-- Settles O28: the step is `transportStep` with the input taken off, and its two arms are the two clauses. -/
theorem transportDeliversTheHead : Obligations.TransportDeliversTheHead := by
  intro s rest hin
  have hstep : step s = .next (transportStep (setInputs rest s)) := step_of_inputs_cons hin
  refine ⟨fun x l hoq => ?_, fun hoq => ?_⟩
  · rw [hstep, transportStep_of_oq_cons (s := setInputs rest s) hoq]; rfl
  · rw [hstep, transportStep_of_oq_nil (s := setInputs rest s) hoq]; rfl

/-! ## The commands that draw nothing (R109, R129, R140, R143) -/

section
variable {i : Instr} {s t : State}

theorem ExecOutcome.responses (h : ExecOutcome i s t) : t.responses = s.responses := by
  cases h with
  | faulted c => exact raiseFault_responses ..
  | rejected | drew | queued | selected | nothing | cleared => rfl

theorem ExecOutcome.oq_of_not_queues (h : ExecOutcome i s t) (hi : ¬ Queues i) : t.oq = s.oq := by
  obtain ⟨new, hoq, -, hqueues⟩ := h.oq
  have hnew : new = [] := by
    by_contra hne
    exact hi (hqueues hne)
  rw [hoq, hnew, List.append_nil]

/-- Only a drawing command faults and only FAULTCLR clears, so no other command writes the record (R146, R143). -/
theorem ExecOutcome.record_of_not_draws (h : ExecOutcome i s t) (hi : ¬ Draws i) (hc : i ≠ .faultclr) :
    t.fault = s.fault ∧ t.fcause = s.fcause ∧ t.fcmd = s.fcmd := by
  cases h with
  | faulted c _ hd => exact absurd hd hi
  | cleared hi => exact absurd hi hc
  | rejected | drew | queued | selected | nothing => exact ⟨rfl, rfl, rfl⟩

end

/-- Settles O38: the frame of a command's outcome, field by field, for one outside the drawing family. -/
theorem nonDrawingCommandsFrame : Obligations.NonDrawingCommandsFrame := by
  intro i s t h hset hrv hrh hclear
  have ho := exec_next h
  have hd : ¬ Draws i := by
    rw [draws_iff]
    rintro (⟨x, y, v, hi⟩ | ⟨x, y, p, c, hi⟩ | ⟨x, y, p, c, hi⟩ | ⟨x, y, w, hh, hi⟩)
    · exact hset _ _ _ hi
    · exact hrv _ _ _ _ hi
    · exact hrh _ _ _ _ hi
    · exact hclear _ _ _ _ hi
  refine ⟨sameStore_of_cells (ho.cells_of_not_draws hd) ho.powerOn, ho.cmdLo, ho.params, ho.delivered, ho.responses,
    ho.inputs, ho.powerOn, fun h1 h2 hf => ho.oq_of_not_queues ?_, fun hn hp hg => ho.cur_of_not_selects ?_,
    ho.record_of_not_draws hd⟩
  · rw [queues_iff]
    rintro (⟨b, hi⟩ | ⟨b, a, hi⟩ | ⟨x, y, w, hh, hi⟩)
    · exact h1 _ hi
    · exact h2 _ _ hi
    · exact hf _ _ _ _ hi
  · rw [selects_iff]
    rintro (hi | hi | ⟨d, hi⟩)
    · exact hn hi
    · exact hp hi
    · exact hg _ hi

end Sys2Proof.Machine
end

section
/-! PROOF. The informative reference sink (93_implementation_defined.md section 3, not normative, assumption log 20):
the three default cursor bytes set its page and column, a burst fills the columns from there, and so the groups of a flush
fill the region page by page. -/

namespace Sys2Proof.Machine

/-! ## One command byte -/

theorem sinkCmd_setPage {k : Sink} {b : Byte} {p : Nat} (hk : k.awaiting = false) (hb : b.toNat = 0xB0 + p)
    (hp : p < 8) : sinkCmd k b = { k with pg := p } := by
  have hpage : (b &&& 0x07).toNat = p := by
    rw [BitVec.toNat_and, hb]
    exact (Nat.and_two_pow_sub_one_eq_mod _ 3).trans (by omega)
  rw [sinkCmd, if_neg (by simp [hk]), if_pos (by omega), hpage]

theorem sinkCmd_lowerColumn {k : Sink} {b : Byte} (hk : k.awaiting = false) (hb : b.toNat < 16) :
    sinkCmd k b = { k with col := (k.col &&& 0xF0) ||| b.toNat } := by
  rw [sinkCmd, if_neg (by simp [hk]), if_neg (by omega), if_pos (by omega)]

theorem sinkCmd_higherColumn {k : Sink} {b : Byte} {n : Nat} (hk : k.awaiting = false) (hb : b.toNat = 0x10 + n)
    (hn : n < 16) : sinkCmd k b = { k with col := (n <<< 4) ||| (k.col &&& 0x0F) } := by
  have hlow : b.toNat &&& 0x0F = n := by
    rw [hb]
    exact (Nat.and_two_pow_sub_one_eq_mod _ 4).trans (by omega)
  rw [sinkCmd, if_neg (by simp [hk]), if_neg (by omega), if_neg (by omega), if_pos (by omega), hlow]

/-- The two column bytes put a column together from its nibbles, whatever the column was. -/
theorem column_of_nibbles (old c : Nat) : ((c / 16) <<< 4) ||| (((old &&& 0xF0) ||| c % 16) &&& 0x0F) = c := by
  have hlow : ((old &&& 0xF0) ||| c % 16) &&& 0x0F = c % 16 := by
    have hmask : ∀ n, n &&& 0x0F = n % 16 := fun n => Nat.and_two_pow_sub_one_eq_mod n 4
    rw [Nat.and_or_distrib_right, Nat.and_assoc, show 0xF0 &&& 0x0F = 0 from rfl, Nat.and_zero, Nat.zero_or, hmask,
      Nat.mod_mod]
  rw [hlow, Nat.shiftLeft_eq, or_eq_add_of_lt 4 (c / 16) (Nat.mul_comm ..) (by omega)]
  omega

theorem sinkRun_append (k : Sink) (l m : List Transaction) : sinkRun k (l ++ m) = sinkRun (sinkRun k l) m :=
  List.foldl_append

/-- The default cursor bytes put the sink at the page and at the moved column. -/
theorem sinkRun_defaultCursorCmds {k : Sink} (hk : k.awaiting = false) {offset page col : Nat} (hpage : page < 8)
    (hcol : col + offset < 256) :
    sinkRun k ((defaultCursorCmds offset page col).map .cmd) = { k with pg := page, col := col + offset } := by
  have hlower := lowerColumnByte_toNat hcol
  simp only [defaultCursorCmds, List.map_cons, List.map_nil, sinkRun, List.foldl_cons, List.foldl_nil, sinkStep]
  rw [sinkCmd_setPage hk (setPageByte_toNat (by omega)) hpage,
    sinkCmd_lowerColumn (k := { k with pg := page }) hk (by omega), hlower,
    sinkCmd_higherColumn (k := { k with pg := page, col := (k.col &&& 0xF0) ||| (col + offset) % 16 }) hk
      (higherColumnByte_toNat hcol) (by omega)]
  simp only [column_of_nibbles]

/-! ## One burst -/

theorem sinkRam_sinkByte (k : Sink) (v : Byte) {p c : Nat} (hc : c < 132) :
    sinkRam (sinkByte k v) p c = if p = k.pg ∧ c = k.col then some v else sinkRam k p c := by
  by_cases hcol : k.col < 132
  · simp only [sinkRam, sinkByte, if_pos hcol, memRead_memWrite]
    exact if_congr (by omega) rfl rfl
  · rw [if_neg (by omega)]
    simp only [sinkRam, sinkByte, if_neg hcol]

theorem foldl_sinkByte_awaiting (bs : List Byte) (k : Sink) : (bs.foldl sinkByte k).awaiting = k.awaiting := by
  induction bs generalizing k with
  | nil => rfl
  | cons v bs ih => rw [List.foldl_cons, ih]; rfl

/-- A burst fills the columns from the sink's own on, on its page. -/
theorem sinkRam_foldl_sinkByte (bs : List Byte) (k : Sink) {p c : Nat} (hc : c < 132) :
    sinkRam (bs.foldl sinkByte k) p c =
      if p = k.pg ∧ k.col ≤ c ∧ c < k.col + bs.length then bs[c - k.col]? else sinkRam k p c := by
  induction bs generalizing k with
  | nil => rw [if_neg (by simp only [List.length_nil]; omega)]; rfl
  | cons v bs ih =>
    have hpg : (sinkByte k v).pg = k.pg := rfl
    have hcol : (sinkByte k v).col = k.col + 1 := rfl
    rw [List.foldl_cons, ih, sinkRam_sinkByte k v hc, hpg, hcol, List.length_cons]
    by_cases hfirst : c = k.col
    · subst hfirst
      rw [if_neg (by omega), Nat.sub_self, List.getElem?_cons_zero]
      exact if_congr (by omega) rfl rfl
    · by_cases hin : p = k.pg ∧ k.col + 1 ≤ c ∧ c < k.col + 1 + bs.length
      · rw [if_pos hin, if_pos (by omega), show c - k.col = c - (k.col + 1) + 1 by omega,
          List.getElem?_cons_succ]
      · rw [if_neg hin, if_neg fun h => hfirst h.2, if_neg (by omega)]

/-! ## The groups of a flush -/

theorem getElem?_burst (s : State) (x : Nat) {w j : Nat} (p : Nat) (hj : j < w) :
    (burst s x w p)[j]? = some (cell s s.cur.toNat (x + j) p) := by
  rw [burst, List.getElem?_map, List.getElem?_range hj, Option.map_some]

theorem flushGroups_succ (s : State) (x y w n : Nat) :
    flushGroups s x y w (n + 1) = flushGroups s x y w n ++ pageGroup s x w (y + n) := by
  rw [flushGroups, flushGroups, List.range_succ, List.flatMap_append, List.flatMap_singleton]

section
variable {s : State} {x w : Nat} (htable : s.params.cursorTable = []) (hx : x + w ≤ 128)
include htable hx

/-- A page group is a burst at the region's first column moved by COL_OFFSET. -/
theorem sinkRun_pageGroup (hw : w ≠ 0) {k : Sink} (hk : k.awaiting = false) {q : Nat} (hq : q < 8) :
    sinkRun k (pageGroup s x w q) =
      (burst s x w q).foldl sinkByte { k with pg := q, col := x + s.params.colOffset.val } := by
  have hoffset := s.params.colOffset.isLt
  rw [pageGroup, if_neg hw, sinkRun_append, cursorCmds_of_table_nil htable,
    sinkRun_defaultCursorCmds hk hq (by omega)]
  rfl

theorem sinkRun_pageGroup_awaiting (hw : w ≠ 0) {k : Sink} (hk : k.awaiting = false) {q : Nat} (hq : q < 8) :
    (sinkRun k (pageGroup s x w q)).awaiting = false := by
  rw [sinkRun_pageGroup htable hx hw hk hq, foldl_sinkByte_awaiting, hk]

/-- Of the region's columns, a page group writes those of its own page, and nothing of another page. -/
theorem sinkRam_pageGroup (hw : w ≠ 0) {k : Sink} (hk : k.awaiting = false) {p q c : Nat} (hq : q < 8)
    (hxc : x ≤ c) (hcw : c < x + w) :
    sinkRam (sinkRun k (pageGroup s x w q)) p (c + s.params.colOffset.val) =
      if p = q then some (cell s s.cur.toNat c q) else sinkRam k p (c + s.params.colOffset.val) := by
  have hoffset := s.params.colOffset.isLt
  rw [sinkRun_pageGroup htable hx hw hk hq, sinkRam_foldl_sinkByte _ _ (by omega), burst_length]
  refine if_congr (by simp only; omega) ?_ rfl
  rw [show c + s.params.colOffset.val - (x + s.params.colOffset.val) = c - x by omega,
    getElem?_burst s x q (by omega), Nat.add_sub_cancel' hxc]

theorem sinkRun_flushGroups_awaiting (hw : w ≠ 0) {k : Sink} (hk : k.awaiting = false) {y n : Nat}
    (hy : y + n ≤ 8) : (sinkRun k (flushGroups s x y w n)).awaiting = false := by
  induction n with
  | zero => exact hk
  | succ n ih =>
    rw [flushGroups_succ, sinkRun_append]
    exact sinkRun_pageGroup_awaiting htable hx hw (ih (by omega)) (by omega)

/-- The groups of a flush leave the region's cells in the sink: each page is written by its own group and by no later
one. -/
theorem sinkRam_flushGroups {k : Sink} (hk : k.awaiting = false) {y n p c : Nat} (hy : y + n ≤ 8) (hyp : y ≤ p)
    (hpn : p < y + n) (hxc : x ≤ c) (hcw : c < x + w) :
    sinkRam (sinkRun k (flushGroups s x y w n)) p (c + s.params.colOffset.val) = some (cell s s.cur.toNat c p) := by
  have hw : w ≠ 0 := by omega
  induction n with
  | zero => omega
  | succ n ih =>
    have hidle := sinkRun_flushGroups_awaiting htable hx hw hk (y := y) (n := n) (by omega)
    rw [flushGroups_succ, sinkRun_append, sinkRam_pageGroup htable hx hw hidle (by omega) hxc hcw]
    by_cases hlast : p = y + n
    · rw [if_pos hlast, hlast]
    · rw [if_neg hlast, ih (by omega) (by omega)]

end

/-- Settles O33: from an empty OQ what is queued are the groups of the flush. -/
theorem referenceSinkShowsTheRegion : Obligations.ReferenceSinkShowsTheRegion := by
  intro x y w h s t k htable hoq hk hx hy hexec p c hyp hph hxc hcw
  rw [exec_flush_of_inside (by omega)] at hexec
  cases hexec
  rw [hoq, List.nil_append]
  exact sinkRam_flushGroups htable hx hk hy hyp hph hxc hcw

end Sys2Proof.Machine
end

section
/-! PROOF. Buffer selection (42_buffer_select.md): CUR goes round the NBUF buffers. -/

namespace Sys2Proof.Machine

/-! ## An index and its neighbours modulo the number of buffers -/

section
variable {c n : Nat} (hc : c < n)
include hc

theorem nextIndex_eq_ite : (c + 1) % n = if c + 1 = n then 0 else c + 1 := by
  split
  · next hlast => rw [hlast, Nat.mod_self]
  · exact Nat.mod_eq_of_lt (by omega)

theorem prevIndex_eq_ite : (c + n - 1) % n = if c = 0 then n - 1 else c - 1 := by
  split
  · next hzero => rw [hzero, Nat.zero_add, Nat.mod_eq_of_lt (Nat.sub_one_lt_of_lt hc)]
  · rw [show c + n - 1 = c - 1 + n by omega, Nat.add_mod_right, Nat.mod_eq_of_lt (by omega)]

theorem prevIndex_nextIndex : ((c + 1) % n + n - 1) % n = c := by
  rw [prevIndex_eq_ite (Nat.mod_lt _ (Nat.zero_lt_of_lt hc)), nextIndex_eq_ite hc]
  split
  · rw [if_pos rfl]; omega
  · rw [if_neg (Nat.succ_ne_zero c), Nat.add_sub_cancel]

theorem nextIndex_prevIndex : ((c + n - 1) % n + 1) % n = c := by
  rw [nextIndex_eq_ite (Nat.mod_lt _ (Nat.zero_lt_of_lt hc)), prevIndex_eq_ite hc]
  split
  · rw [if_pos (by omega)]; omega
  · rw [if_neg (by omega)]; omega

end

/-- An index modulo NBUF fits CUR's 8 bits (R27, R33). -/
theorem toNat_ofNat_mod_nbuf (n : Nat) {nbuf : Byte} (h : 0 < nbuf.toNat) :
    (BitVec.ofNat 8 (n % nbuf.toNat)).toNat = n % nbuf.toNat :=
  ofNat_toNat_of_lt ((Nat.mod_lt n h).trans nbuf.isLt)

/-! ## BUFNEXT and BUFPREV (R131, R134) -/

theorem exec_bufnext (s : State) : exec .bufnext s =
    .next { s with cur := BitVec.ofNat 8 ((s.cur.toNat + 1) % s.params.nbuf.toNat), rej := false } := rfl

theorem exec_bufprev (s : State) : exec .bufprev s = .next
    { s with
      cur := BitVec.ofNat 8 ((s.cur.toNat + s.params.nbuf.toNat - 1) % s.params.nbuf.toNat)
      rej := false } := rfl

/-- Settles O34: the stored index is the one modulo NBUF, and only the ends of the range wrap. -/
theorem bufferNextAndPreviousWrap : Obligations.BufferNextAndPreviousWrap := by
  intro s hcur
  have hstored := fun n => toNat_ofNat_mod_nbuf n (Nat.zero_lt_of_lt hcur)
  exact ⟨⟨_, exec_bufnext s, rfl, hstored _, (hstored _).trans (nextIndex_eq_ite hcur)⟩,
    ⟨_, exec_bufprev s, rfl, hstored _, (hstored _).trans (prevIndex_eq_ite hcur)⟩⟩

/-- Settles O35: the two index functions are inverse below NBUF, and neither command writes anything but CUR and REJ. -/
theorem bufferNextAndPreviousUndo : Obligations.BufferNextAndPreviousUndo := by
  intro s hcur
  have hstored := fun n => toNat_ofNat_mod_nbuf n (Nat.zero_lt_of_lt hcur)
  have hsame : BitVec.ofNat 8 s.cur.toNat = s.cur := by rw [BitVec.ofNat_toNat, BitVec.setWidth_eq]
  constructor
  · simp only [execAll, exec_bufnext, exec_bufprev, hstored, prevIndex_nextIndex hcur, hsame]
  · simp only [execAll, exec_bufnext, exec_bufprev, hstored, nextIndex_prevIndex hcur, hsame]

/-! ## BUFGOTO (R137) -/

theorem exec_bufgoto_of_outside {d : Byte} {s : State} (h : IndexOutside d s.params.nbuf) :
    exec (.bufgoto d) s = .next { s with rej := true } := by
  rw [exec, execBufgoto, if_pos h]; rfl

theorem exec_bufgoto_of_inside {d : Byte} {s : State} (h : ¬ IndexOutside d s.params.nbuf) :
    exec (.bufgoto d) s = .next { s with cur := d, rej := false } := by
  rw [exec, execBufgoto, if_neg h, setCur, BitVec.ofNat_toNat, BitVec.setWidth_eq]; rfl

/-- Settles O36: the two branches of BUFGOTO's check. -/
theorem bufferGotoSelectsOrRejects : Obligations.BufferGotoSelectsOrRejects := fun _ _ =>
  ⟨exec_bufgoto_of_outside, fun h => exec_bufgoto_of_inside (Nat.not_le_of_lt h)⟩

end Sys2Proof.Machine
end

section
/-! PROOF. NOP and FAULTCLR (43_control.md): what each writes, and the words of OP 0x3F that a faulted block does not
serve. -/

namespace Sys2Proof.Machine

/-! ## The two commands (R140, R143) -/

theorem exec_nop (s : State) : exec .nop s = .next { s with rej := false } := rfl

theorem done_clearFault (s : State) :
    done (clearFault s) = { s with fault := false, fcause := 0, fcmd := 0, rej := false } := rfl

/-- Settles O37: NOP is `done()`, and FAULTCLR is `done()` once the record is cleared. -/
theorem nopAndFaultclr : Obligations.NopAndFaultclr := fun s =>
  ⟨exec_nop s, by rw [exec_faultclr, done_clearFault]⟩

/-! ## OP 0x3F not served (R144, R155) -/

/-- A word of OP 0x3F other than FAULTCLR's has a reserved bit set. -/
theorem decode_of_opField_faultclr_of_ne {w : Word64} (hop : opField w = 0x3F) (hw : w ≠ 0x3F00000000000000) :
    decode w = .error .reservedField := by
  have hrow := decode_of_opField_faultclr hop
  have hbits : w &&& zeroNone ≠ 0 := fun hzero =>
    hw (eq_of_decode_faultclr hop (hrow.trans (decodeRow_of_zero _ hzero)))
  exact hrow.trans (decodeRow_of_reserved _ hbits)

theorem withRecord_of_fault {s : State} (h : s.fault = true) (code : Byte) (info : Word64) :
    withRecord s code info = s := if_pos h

/-- Settles O7: the commit gets past the discard, so it overruns or finds a reserved bit; either fault meets a record
that stands. -/
theorem unservedFaultclrKeepsTheRecord : Obligations.UnservedFaultclrKeepsTheRecord := by
  intro s w rest hcommit hfault hop hbad
  obtain ⟨-, overruns, executes, -⟩ := commitDiscardsOverrunsOrExecutes s w rest hcommit
  have hserved : ¬ (s.fault = true ∧ opField w ≠ 0x3F) := fun ⟨_, hne⟩ => hne hop
  have kept := withRecord_of_fault (s := { s with inputs := rest }) hfault
  by_cases hidle : s.oq = []
  · have hw : w ≠ 0x3F00000000000000 := hbad.resolve_right (not_not_intro hidle)
    rw [executes hserved hidle, executeWord_of_reservedField (decode_of_opField_faultclr_of_ne hop hw), kept]
  · rw [overruns hserved hidle, kept]

end Sys2Proof.Machine
end

section
/-! PROOF. Fault entry (60_exceptions.md R145, R146, R151, R152): which commands are performed and which fault or are
rejected, and that a command, an access or a step which records a first fault does nothing beside. -/

namespace Sys2Proof.Machine

/-! ## Commands that are performed, and commands that are not (R145) -/

section
variable {i : Instr} {s t : State}

theorem ExecOutcome.of_wellFormed (h : ExecOutcome i s t) (hw : i.wellFormed s.params.nbuf = true) :
    t.rej = false ∧ (i ≠ .faultclr → t.fault = s.fault ∧ t.fcause = s.fcause ∧ t.fcmd = s.fcmd) := by
  cases h with
  | rejected hill | faulted _ hill => rw [hw] at hill; cases hill
  | cleared hi => exact ⟨rfl, fun hne => absurd hi hne⟩
  | drew | queued | selected | nothing => exact ⟨rfl, fun _ => ⟨rfl, rfl, rfl⟩⟩

theorem ExecOutcome.of_illFormed (h : ExecOutcome i s t) (hw : i.wellFormed s.params.nbuf = false) :
    t = reject s ∨
      ∃ c, (c = .badValue ∨ c = .countRange ∨ c = .pixelRange) ∧ t = raiseFault c (encode i) s := by
  cases h with
  | rejected => exact .inl rfl
  | faulted c _ _ hc => exact .inr ⟨c, hc, rfl⟩
  | drew _ hwell | queued _ hwell | selected _ hwell => rw [hw] at hwell; cases hwell
  | nothing hi | cleared hi => rw [hi] at hw; cases hw

end

/-- The causes of a command's own checks have the codes 3 to 5 (R146). -/
theorem causeCode_of_operandCheck {c : Cause} (hc : c = .badValue ∨ c = .countRange ∨ c = .pixelRange) :
    3 ≤ (causeCode c).toNat ∧ (causeCode c).toNat ≤ 5 := by
  rcases hc with rfl | rfl | rfl <;> decide

/-- Settles O14: the outcomes of a command, parted by whether it is well formed. -/
theorem wellFormedCommandsArePerformed : Obligations.WellFormedCommandsArePerformed := by
  intro i s
  obtain ⟨t, ht, ho⟩ := exec_outcome i s
  refine ⟨t, ht, ho.of_wellFormed, fun hw => ?_⟩
  obtain hrej | ⟨c, hc, hfault⟩ := ho.of_illFormed hw
  · exact .inl hrej
  · exact .inr ⟨causeCode c, causeCode_of_operandCheck hc, hfault⟩

/-! ## What records a first fault does fault entry alone (R151) -/

/-- From `s` to `t` there is fault entry and nothing else. -/
def FaultEntry (s t : State) : Prop := ∃ c info, t = raiseFault c info s

section
variable {s t : State}

theorem ExecOutcome.faultEntry {i : Instr} (h : ExecOutcome i s t) (hs : s.fault = false) (ht : t.fault = true) :
    FaultEntry s t := by
  cases h with
  | faulted c => exact ⟨c, encode i, rfl⟩
  | cleared => cases ht
  | rejected | drew | queued | selected | nothing => exact absurd (hs.symm.trans ht) Bool.false_ne_true

theorem CommitOutcome.faultEntry {w : Word64} (h : CommitOutcome w s t) (hs : s.fault = false) (ht : t.fault = true) :
    FaultEntry s t := by
  cases h with
  | discarded hf => rw [hs] at hf; cases hf
  | overrun => exact ⟨.overrun, w, rfl⟩
  | undecoded c => exact ⟨c, w, rfl⟩
  | executed _ _ _ _ _ _ ho => exact ho.faultEntry hs ht

theorem hostWrite_cmdHi (v : Word32) (s : State) : hostWrite 0x014 .word v s = commit v s := rfl

theorem hostWrite_faultEntry {off : Offset} {n : Size} {v : Word32} (h : hostWrite off n v s = .next t)
    (hs : s.fault = false) (ht : t.fault = true) : FaultEntry s t := by
  by_cases hserved : WriteServed off n
  · obtain ⟨rfl, rfl | rfl⟩ := hserved
    · cases (hostWrite_cmdLo v s).symm.trans h
      exact absurd (hs.symm.trans ht) Bool.false_ne_true
    · obtain ⟨u, hu, ho⟩ := commit_outcome v s
      cases hu.symm.trans ((hostWrite_cmdHi v s).symm.trans h)
      exact ho.faultEntry hs ht
  · cases (hostWrite_of_not_served v s hserved).symm.trans h
    exact ⟨_, _, rfl⟩

/-- A read that records a first fault also returns its 0 (R147). -/
theorem hostRead_faultEntry {off : Offset} {n : Size} (hs : s.fault = false) (ht : (hostRead off n s).fault = true) :
    ∃ u, FaultEntry s u ∧ hostRead off n s = respond 0 u := by
  obtain ⟨v, -, h⟩ | ⟨-, h⟩ := hostRead_eq off n s
  · rw [h, respond_fault, hs] at ht; cases ht
  · exact ⟨_, ⟨_, _, rfl⟩, h⟩

end

/-- Settles O11: the two cases of `raiseFault`, and fault entry in a write and in a read. -/
theorem faultEntryKeepsTheFirstRecord : Obligations.FaultEntryKeepsTheFirstRecord := by
  refine ⟨fun c info s => ⟨raiseFault_of_no_fault, raiseFault_of_fault⟩,
    fun off n v s t => hostWrite_faultEntry, fun off n s hs ht => ?_⟩
  obtain ⟨_, ⟨c, info, rfl⟩, h⟩ := hostRead_faultEntry hs ht
  exact ⟨c, info, by rw [h, respond, raiseFault_responses]⟩

/-! ## A step that records a fault (R152) -/

theorem causeCode_bounds (c : Cause) : 1 ≤ (causeCode c).toNat ∧ (causeCode c).toNat ≤ 7 := by
  cases c <;> decide

/-- The state after a first fault is recorded, values `rs` returned and the input at the head taken off. -/
def faultedBy (c : Cause) (info : Word64) (rs : List Word32) (s : State) : State :=
  { s with
    fault := true, fcause := causeCode c, fcmd := info, responses := s.responses ++ rs, inputs := s.inputs.tail }

theorem raiseFault_setInputs_tail (c : Cause) (info : Word64) {s : State} (hs : s.fault = false) :
    raiseFault c info (setInputs s.inputs.tail s) = faultedBy c info [] s := by
  rw [raiseFault_of_no_fault (s := setInputs s.inputs.tail s) hs, faultedBy, List.append_nil]; rfl

theorem respond_faultedBy (c : Cause) (info : Word64) (v : Word32) (s : State) :
    respond v (faultedBy c info [] s) = faultedBy c info [v] s := by
  simp only [respond, faultedBy, List.append_nil]

/-- Only a host access records a fault: a read with the 0 it returns, a write with no value. -/
theorem step_faultedBy {s t : State} (h : step s = .next t) (hs : s.fault = false) (ht : t.fault = true) :
    ∃ c info rs, t = faultedBy c info rs s := by
  cases hin : s.inputs with
  | nil =>
    cases (step_of_inputs_nil hin).symm.trans h
    rw [transportStep_fault, hs] at ht; cases ht
  | cons e rest =>
    have hserve : serve e (setInputs rest s) = .next t := (step_of_inputs_cons hin).symm.trans h
    obtain rfl : s.inputs.tail = rest := by rw [hin, List.tail_cons]
    cases e with
    | read off n =>
      cases hserve
      obtain ⟨_, ⟨c, info, rfl⟩, hread⟩ := hostRead_faultEntry (s := setInputs s.inputs.tail s) hs ht
      exact ⟨c, info, [0], by rw [hread, raiseFault_setInputs_tail c info hs, respond_faultedBy]⟩
    | write off n v =>
      obtain ⟨c, info, rfl⟩ := hostWrite_faultEntry (s := setInputs s.inputs.tail s) hserve hs ht
      exact ⟨c, info, [], raiseFault_setInputs_tail c info hs⟩
    | transport =>
      cases hserve
      rw [transportStep_fault, setInputs_fault, hs] at ht; cases ht
    | reset => cases hserve; cases ht

/-- Settles O13, by `step_faultedBy` and the codes of R146. -/
theorem faultsArePrecise : Obligations.FaultsArePrecise := by
  intro s t h hs ht
  obtain ⟨c, info, rs, rfl⟩ := step_faultedBy h hs ht
  exact ⟨causeCode_bounds c, rs, rfl, rfl⟩

end Sys2Proof.Machine
end

section
/-! PROOF. Reset and hazards (70_reset_and_hazards.md R164, R169): the block after the reset input, and the commands that
leave it busy. -/

namespace Sys2Proof.Machine

/-! ## The reset input (R164, R127) -/

/-- Settles O51: the step is `resetInput`, which leaves no cell written. -/
theorem resetInputResetsTheBlock : Obligations.ResetInputResetsTheBlock := fun s rest hin =>
  ⟨resetInput (setInputs rest s), step_of_inputs_cons hin, rfl, rfl, rfl, rfl, rfl, rfl, rfl, rfl, rfl, rfl, rfl,
    fun _ => byteAt_of_unwritten rfl⟩

/-! ## BUSY after a command (R30, R113, R169) -/

section
variable {i : Instr} {s t : State}

theorem not_busy_of_oq_nil (h : s.oq = []) : ¬ busy s = true := fun hb => (busy_eq_true s).1 hb h

theorem busy_of_oq_eq_append_cons {x : Transaction} {l : List Transaction} (h : t.oq = s.oq ++ x :: l) :
    busy t = true :=
  (busy_eq_true t).2 (h ▸ List.append_ne_nil_of_right_ne_nil s.oq (List.cons_ne_nil x l))

/-- From an empty OQ, FLUSH leaves BUSY set exactly when its region is in bounds and not empty. -/
theorem busy_exec_flush_iff {x y w h : Byte} (hoq : s.oq = []) (he : exec (.flush x y w h) s = .next t) :
    busy t = true ↔ x.toNat + w.toNat ≤ 128 ∧ y.toNat + h.toNat ≤ 8 ∧ w.toNat > 0 ∧ h.toNat > 0 := by
  by_cases hout : FlushOutside x y w h
  · cases (exec_flush_of_outside hout s).symm.trans he
    exact iff_of_false (not_busy_of_oq_nil hoq) (by omega)
  · cases (exec_flush_of_inside hout s).symm.trans he
    rw [busy_eq_true, hoq, List.nil_append, ne_eq, flushGroups_eq_nil_iff]
    omega

theorem ExecOutcome.not_busy_of_not_queues (h : ExecOutcome i s t) (hoq : s.oq = []) (hi : ¬ Queues i) :
    ¬ busy t = true :=
  not_busy_of_oq_nil ((h.oq_of_not_queues hi).trans hoq)

end

/-- Settles O27: a command outside the queueing family appends nothing; CMD1 and CMD2 always append, FLUSH exactly for a
region in bounds that is not empty. -/
theorem onlyTransportCommandsSetBusy : Obligations.OnlyTransportCommandsSetBusy := by
  intro i s t hoq he
  by_cases hq : Queues i
  · obtain ⟨b, rfl⟩ | ⟨b, a, rfl⟩ | ⟨x, y, w, h, rfl⟩ := (queues_iff i).1 hq
    · cases (exec_cmd1 b s).symm.trans he
      exact iff_of_true (busy_of_oq_eq_append_cons (s := s) rfl) (.inl ⟨b, rfl⟩)
    · cases (exec_cmd2 b a s).symm.trans he
      exact iff_of_true (busy_of_oq_eq_append_cons (s := s) rfl) (.inr (.inl ⟨b, a, rfl⟩))
    · rw [busy_exec_flush_iff hoq he]
      constructor
      · exact fun hregion => .inr (.inr ⟨x, y, w, h, rfl, hregion⟩)
      · rintro (⟨_, hi⟩ | ⟨_, _, hi⟩ | ⟨_, _, _, _, hi, hregion⟩) <;> cases hi
        exact hregion
  · refine iff_of_false ((exec_next he).not_busy_of_not_queues hoq hq) fun hbusy => hq ((queues_iff i).2 ?_)
    obtain h1 | h2 | ⟨x, y, w, h, hi, -⟩ := hbusy
    · exact .inl h1
    · exact .inr (.inl h2)
    · exact .inr (.inr ⟨x, y, w, h, hi⟩)

end Sys2Proof.Machine
end
